-- ==== Sys2Proof/Word.lean ====
section
/-! DEFINITION. The words of the hardware: bytes, characters, lines, records and 32-bit addresses
(spec/00_scope.md sections 4 and 6). All values are unsigned; nothing is signed. -/

namespace Sys2Proof

/-- A byte of a record or of the memory image, 8 bits (00_scope.md section 4). -/
abbrev Byte := BitVec 8

/-- A nibble, 4 bits, values 0 to 15 (00_scope.md section 4). -/
abbrev Nibble := BitVec 4

/-- A character of a line, 8 bits. PRESUMED width: decision D2, log entry 7. -/
abbrev Char8 := BitVec 8

/-- A 16-bit field: a line offset, a segment value, `cs`, `ip` (R53, R56). -/
abbrev Half := BitVec 16

/-- A 32-bit word: `baseAddress`, `eip` (R11, R13). -/
abbrev Word := BitVec 32

/-- An absolute address, 32 bits (R30). -/
abbrev Addr := BitVec 32

/-- One raw text line: a finite sequence of characters, leftmost first (R161). -/
abbrev Line := List Char8

/-- A record: the byte sequence one line spells, first decoded byte first (R53). -/
abbrev Record := List Byte

end Sys2Proof
end

