-- ==== Sys2Proof/Config.lean ====
section
/-! DEFINITION. What is fixed for this hardware and is not state. There is no run-time configuration (R18)
and no free value: the spec leaves no value open that a step can produce (INVENTORY.md). The spec's two OPEN
parameters, MEM_CAPACITY (D12) and LINE_MAX (D15), are left out: the image is unbounded within the address
space (log entry 17) and a line has any finite length (log entry 18). -/

namespace Sys2Proof.Config

/-- The number of byte cells of the one address space, 2^32 (R30). -/
def addressSpace : Nat := 4294967296

/-- The largest payload the 8-bit length byte can declare (R53, R57). -/
def maxPayload : Nat := 255

end Sys2Proof.Config
end

