-- ==== Sys2Proof/Syntax.lean ====
section
/-! DEFINITION. The instruction set: the closed set of six record types (R50). -/

namespace Sys2Proof

/-- A structurally valid record (R54), one constructor for each row of spec/opcode_table.json. Each carries
the 16-bit offset field and the payload, of ANY length the record has: a record of the right type and the
wrong shape reaches its processor and draws its error there (30_encoding.md section 3.1). The length byte and
the checksum byte are functions of these (`recordOf` in Decode.lean); log entry 25. -/
inductive Instr where
  | data (offset : Half) (payload : List Byte)   -- type 0x00, R57
  | eof  (offset : Half) (payload : List Byte)   -- type 0x01, R58
  | esa  (offset : Half) (payload : List Byte)   -- type 0x02, R59
  | ssa  (offset : Half) (payload : List Byte)   -- type 0x03, R60
  | ela  (offset : Half) (payload : List Byte)   -- type 0x04, R61
  | sla  (offset : Half) (payload : List Byte)   -- type 0x05, R62
  deriving DecidableEq, Repr

end Sys2Proof
end

