-- ==== Sys2Proof/WellFormed.lean ====
section
/-! DEFINITION. Which instructions a record can spell. The offset is any 16-bit value; the payload length must
fit the 8-bit length byte (R53). Nothing else is asked: every shape reaches its processor (R135). -/

namespace Sys2Proof

/-- The line offset of an instruction (R103). -/
def Instr.offset : Instr → Half
  | .data o _ => o
  | .eof o _ => o
  | .esa o _ => o
  | .ssa o _ => o
  | .ela o _ => o
  | .sla o _ => o

/-- The payload of an instruction (R106). -/
def Instr.payload : Instr → List Byte
  | .data _ p => p
  | .eof _ p => p
  | .esa _ p => p
  | .ssa _ p => p
  | .ela _ p => p
  | .sla _ p => p

/-- The payload fits the length byte: 0 to 255 bytes (R53, R54). -/
def Instr.wellFormed (i : Instr) : Bool :=
  decide (i.payload.length ≤ Config.maxPayload)

end Sys2Proof
end

