-- ==== Sys2Proof/Decode.lean ====
section
/-! DEFINITION. From a line to an instruction or a named error, total on any list of characters: the Line
Validator (spec/41), the Hex Codec (40), the Record Model and checksum (42) and the selection of the record
type (30, 44). Then the encoder, from the same tables, and the host's table words. -/

namespace Sys2Proof

/-! ## The error kinds a step can report -/

/-- The four subkinds of `MalformedLine` (R176). -/
inductive MalformedSubkind where
  | missingMarker     -- R91
  | badLengthParity   -- R92
  | tooShort          -- R93
  | invalidCharacter  -- R94
  deriving DecidableEq, Repr

/-- The twelve error kinds (R175), a closed set. An error is no fault of the machine: it is the result of the
step, and the machine goes on (R190, R192). -/
inductive ErrKind where
  | malformedLine (sub : MalformedSubkind)   -- R176
  | recordLengthMismatch                     -- R177
  | unknownRecordType                        -- R178
  | checksumMismatch                         -- R179
  | invalidEndOfFileRecord                   -- R180
  | duplicateEndOfFileRecord                 -- R181
  | badExtendedSegmentAddressRecord          -- R182
  | badExtendedLinearAddressRecord           -- R183
  | badStartSegmentAddressRecord             -- R184
  | badStartLinearAddressRecord              -- R185
  | duplicateStartAddressRecord              -- R186
  | addressOverlap                           -- R187
  deriving DecidableEq, Repr

/-! ## Characters (R52, R80, R82, R94) -/

/-- The code of the marker `:` (R52). PRESUMED: ASCII, log entry 7. -/
def markerChar : Char8 := 0x3A

/-- `isHexDigit` (R94), with the codes of R52. PRESUMED codes: ASCII, log entry 7. -/
def isHexDigit (c : Char8) : Bool :=
  (0x30 ≤ c.toNat && c.toNat ≤ 0x39) || (0x41 ≤ c.toNat && c.toNat ≤ 0x46) || (0x61 ≤ c.toNat && c.toNat ≤ 0x66)

/-- `charToNibble` (R80), a partial function: no result outside the hex digits (R81, D19, log entry 19). -/
def charToNibble (c : Char8) : Option Nibble :=
  if 0x30 ≤ c.toNat ∧ c.toNat ≤ 0x39 then some (BitVec.ofNat 4 (c.toNat - 0x30))
  else if 0x41 ≤ c.toNat ∧ c.toNat ≤ 0x46 then some (BitVec.ofNat 4 (c.toNat - 0x41 + 10))
  else if 0x61 ≤ c.toNat ∧ c.toNat ≤ 0x66 then some (BitVec.ofNat 4 (c.toNat - 0x61 + 10))
  else none

/-- The Hex codec sub-block as a port: `isHex` and `nibble`, the second meaningful only when the first is set
(R164). -/
def hexCodecPort (c : Char8) : Bool × Option Nibble :=
  (isHexDigit c, charToNibble c)

/-- `byteFromHexPair(hi, lo)` is `{nibble(hi), nibble(lo)}`, partial as `charToNibble` is (R82). -/
def byteFromHexPair (hi lo : Char8) : Option Byte :=
  match charToNibble hi, charToNibble lo with
  | some h, some l => some (h ++ l)
  | _, _ => none

/-- The pairs of a run of digits as bytes, in order, the marker taken off already: the loop of R83. No result when a
character is left over or is no hex digit (R81, U1, D19, log entry 19). -/
def bytesFromPairs : List Char8 → Option Record
  | [] => some []
  | [_] => none
  | hi :: lo :: rest =>
    match byteFromHexPair hi lo, bytesFromPairs rest with
    | some b, some bs => some (b :: bs)
    | _, _ => none

/-! ## The Line Validator (R90) -/

/-- `validateLine`: four checks in order, the first that fails is the error (R90 to R94). The empty line has no
marker (D6, log entry 11). -/
def validateLine (line : Line) : Except ErrKind Unit :=
  match line with
  | [] => .error (.malformedLine .missingMarker)
  | c :: digits =>
    if c ≠ markerChar then .error (.malformedLine .missingMarker)
    else if line.length % 2 = 0 then .error (.malformedLine .badLengthParity)
    else if line.length < 11 then .error (.malformedLine .tooShort)
    else if digits.all isHexDigit then .ok ()
    else .error (.malformedLine .invalidCharacter)

/-! ## The hex run (R83) -/

/-- `bytesFromHexRun(s)` (R83): the pairs after the marker, which is skipped and never decoded. This is also
the Record Decoder's `decode` (R84). Partial: no result on a line that is not well-formed, one that fails any of the
four checks of R90 (U1, R213, D19, log entry 19). -/
def bytesFromHexRun (line : Line) : Option Record :=
  match validateLine line with
  | .ok _ => bytesFromPairs (line.drop 1)
  | .error _ => none

/-! ## The Record Model (R101 to R107)

Each accessor is partial: a byte or field accessor has no result where the record has no such byte, and `recPayload`
none where the size check of R104 fails (U10, R106; model's choice, log entry 27). -/

/-- `be8(rec, k)` (R107). -/
def be8 (rec : Record) (k : Nat) : Option Byte := rec[k]?

/-- `be16(rec, k)`: the byte at the lower index is the more significant (R107, R36). -/
def be16 (rec : Record) (k : Nat) : Option Half :=
  match be8 rec k, be8 rec (k + 1) with
  | some a, some b => some (a ++ b)
  | _, _ => none

/-- `be32(rec, k)` (R107). -/
def be32 (rec : Record) (k : Nat) : Option Word :=
  match be16 rec k, be16 rec (k + 2) with
  | some a, some b => some (a ++ b)
  | _, _ => none

/-- `length(rec)`: byte 0 (R101). -/
def recLength (rec : Record) : Option Byte := be8 rec 0

/-- `offset(rec)`: bytes 1 and 2, big-endian (R103). -/
def recOffset (rec : Record) : Option Half := be16 rec 1

/-- `payload(rec)`: the bytes 4 up to but not including `4 + length` (R106). R106 calls it meaningful only after the
size check of R104. DESIGN CHOICE (log entry 27): it has no result on a record that fails that check. -/
def recPayload (rec : Record) : Option (List Byte) :=
  match recLength rec with
  | some n => if rec.length = n.toNat + 5 then some ((rec.drop 4).take n.toNat) else none
  | none => none

/-! ## Record types: the one table of codes (R50) -/

/-- The closed enumeration of record types (R50). -/
inductive RecordType where
  | data | eof | esa | ssa | ela | sla
  deriving DecidableEq, Repr

/-- The code of each record type: THE ONE TABLE (R50). `data` and `eof` are the source's. PRESUMED: the other
four, from general knowledge (D3, G2), log entry 8. -/
def recordTypeCode : RecordType → Byte
  | .data => 0x00
  | .eof => 0x01
  | .esa => 0x02
  | .ssa => 0x03
  | .ela => 0x04
  | .sla => 0x05

/-- All six record types, in the order of R50. -/
def recordTypes : List RecordType := [.data, .eof, .esa, .ssa, .ela, .sla]

/-- The record-type selector (R102, R164): the type whose code the byte is; none for an unknown code (R63). -/
def recordTypeOf (code : Byte) : Option RecordType :=
  recordTypes.find? fun t => recordTypeCode t == code

/-- `type(rec)`: byte 3 through the table; no result for an unknown code (R102). -/
def recType (rec : Record) : Option RecordType :=
  match be8 rec 3 with
  | some code => recordTypeOf code
  | none => none

/-- The record type of an instruction. -/
def Instr.recordType : Instr → RecordType
  | .data _ _ => .data
  | .eof _ _ => .eof
  | .esa _ _ => .esa
  | .ssa _ _ => .ssa
  | .ela _ _ => .ela
  | .sla _ _ => .sla

/-- The instruction of a record type with its offset and payload: the six-way selection of R135. -/
def instrOf (t : RecordType) (offset : Half) (payload : List Byte) : Instr :=
  match t with
  | .data => .data offset payload
  | .eof => .eof offset payload
  | .esa => .esa offset payload
  | .ssa => .ssa offset payload
  | .ela => .ela offset payload
  | .sla => .sla offset payload

/-! ## The checksum validator (R105, R108) -/

/-- The unbounded sum of the bytes of a record. -/
def byteSum (rec : Record) : Nat := (rec.map fun b => b.toNat).sum

/-- `checksumValid(rec)`: the sum of all bytes, the checksum byte included, is a multiple of 256 (R105). -/
def checksumValid (rec : Record) : Bool := byteSum rec % 256 == 0

/-- The checksum validator as a port (R164): an 8-bit accumulator cleared at the start of a record, each byte
added with the carry discarded. -/
def checksumAccumulator (rec : Record) : Byte := rec.foldl (fun acc b => acc + b) 0

/-- The checksum byte that completes the bytes before it: `(256 - (S mod 256)) mod 256` (R108, 30_encoding.md
section 4). -/
def checksumByte (body : List Byte) : Byte := BitVec.ofNat 8 (256 - byteSum body % 256)

/-! ## Structural validation and the decoder (R104, R135, R160) -/

/-- `validateStructure`: size, type, checksum, in this order; the first that fails is the error (R104). A
record without a byte 0 does not occur after the Line Validator (R95). -/
def validateStructure (rec : Record) : Except ErrKind Unit :=
  match recLength rec with
  | none => .error .recordLengthMismatch
  | some n =>
    if rec.length ≠ n.toNat + 5 then .error .recordLengthMismatch
    else if recType rec = none then .error .unknownRecordType
    else if checksumValid rec = false then .error .checksumMismatch
    else .ok ()

/-- The instruction a record is, or its structural error (R104, R135). The last arm is never reached: a record
that passed `validateStructure` has all three fields (log entry 26). -/
def decodeRecord (rec : Record) : Except ErrKind Instr :=
  match validateStructure rec with
  | .error k => .error k
  | .ok _ =>
    match recType rec, recOffset rec, recPayload rec with
    | some t, some offset, some payload => .ok (instrOf t offset payload)
    | _, _, _ => .error .recordLengthMismatch

/-- The part of `processLine` before the dispatch: validate the line, decode it, validate the record (R160).
The arm in which the codec has no result is never reached: on a validated line it cannot fail (R95, R160;
log entry 26). -/
def decodeLine (line : Line) : Except ErrKind Instr :=
  match validateLine line with
  | .error k => .error k
  | .ok _ =>
    match bytesFromHexRun line with
    | some rec => decodeRecord rec
    | none => .error (.malformedLine .invalidCharacter)

/-! ## The encoder -/

/-- The first four bytes of a record: length, offset high, offset low, type (R53). -/
def headerBytes (length : Nat) (offset : Half) (code : Byte) : List Byte :=
  [BitVec.ofNat 8 length, offset.extractLsb' 8 8, offset.extractLsb' 0 8, code]

/-- Header bytes and payload completed by the checksum byte (R53, R54). -/
def sealRecord (body : List Byte) : Record := body ++ [checksumByte body]

/-- The record of an instruction (R53, R57 to R62). -/
def recordOf (i : Instr) : Record :=
  sealRecord (headerBytes i.payload.length i.offset (recordTypeCode i.recordType) ++ i.payload)

/-- The character of a nibble, upper case (R52). Either case decodes alike (R66); log entry 25. -/
def nibbleToChar (v : Nibble) : Char8 :=
  if v.toNat < 10 then BitVec.ofNat 8 (0x30 + v.toNat) else BitVec.ofNat 8 (0x37 + v.toNat)

/-- The two characters of a byte, high nibble first (R51, R55). -/
def hexOfByte (b : Byte) : List Char8 :=
  [nibbleToChar (b.extractLsb' 4 4), nibbleToChar (b.extractLsb' 0 4)]

/-- The line that spells a record: the marker, then each byte as two hex digits (R51). -/
def lineOfRecord (rec : Record) : Line := markerChar :: rec.flatMap hexOfByte

/-- The line of an instruction (R65). -/
def encode (i : Instr) : Line := lineOfRecord (recordOf i)

/-- The upper-case form of a letter; every other character is itself. Letter case carries no meaning (R66). -/
def upperCase (c : Char8) : Char8 :=
  if 0x61 ≤ c.toNat ∧ c.toNat ≤ 0x7A then BitVec.ofNat 8 (c.toNat - 0x20) else c

/-! ## The host's table words -/

/-- The line of a table word: `w` is the header word `H = {rec[0], rec[1], rec[2], rec[3]}` of R68, type in bits
7 to 0; the payload it declares is zeros; the checksum byte, to which the table gives no bits, is the one that
completes the record (log entry 6). -/
def lineOfTableWord (nbits w : Nat) : Line :=
  let h : Word := BitVec.ofNat 32 (w % 2 ^ nbits)
  lineOfRecord (sealRecord
    ([h.extractLsb' 24 8, h.extractLsb' 16 8, h.extractLsb' 8 8, h.extractLsb' 0 8]
      ++ List.replicate (h.extractLsb' 24 8).toNat 0))

/-- The instruction the decoder reads from a table word, none where it refuses. -/
def decodeTableWord (nbits w : Nat) : Option Instr :=
  match decodeLine (lineOfTableWord nbits w) with
  | .ok i => some i
  | .error _ => none

end Sys2Proof
end

