-- ==== Sys2Proof/Machine/State.lean ====
section
/-! DEFINITION. The state of the machine: the four elements of a decoding session (R10), and the two ports of a
step (R161), which are the model's own fields. Plain data. -/

namespace Sys2Proof.Machine

/-- The memory image (R16): the populated cells, addresses strictly rising. An unlisted address is unpopulated,
which is the reset condition of all 2^32 (R21, R31). The form is `Memory.wf` in Ops.lean. -/
abbrev Memory := List Host.Cell

/-- The optional start address (R13). -/
inductive StartAddress where
  | absent
  | segmentCsIp (cs ip : Half)
  | linear (eip : Word)
  deriving DecidableEq, Repr

/-- The result of one step: `Ok` or `Err(kind)`, and nothing else (R161, D4). -/
inductive StepResult where
  | ok
  | err (kind : ErrKind)
  deriving DecidableEq, Repr

/-- The state. The first four fields are the whole session state of the spec (R10); there is no program
counter (R14), no mode bit (R12), no status or control register (R18), no error latch (R192). -/
structure State where
  /-- The running base address (R11). -/
  baseAddress : Word
  /-- The memory image (R16). -/
  mem : Memory
  /-- The start address (R13). -/
  startAddress : StartAddress
  /-- The end-of-file flag (R15). -/
  eofFlag : Bool
  /-- HOST PORT, the model's own (log entry 1): the lines the host will supply, the next one first (R14). -/
  lines : List Line
  /-- HOST PORT, the model's own (log entry 2): the result output of the step just made (R161). No step reads
  it (R165). -/
  result : Option StepResult
  deriving DecidableEq, Repr

/-- Why the machine stops with a fault: never. The spec names no fault; every error is the result of a step
after which the machine goes on (R190, R192), and no address is missing (R39). Safe: the type is empty. -/
inductive Fault where
  deriving DecidableEq, Repr

/-- Why the model gives a step no meaning. -/
inductive Refusal where
  /-- Raised by an arm of `exec` for an instruction without a meaning. Safe. No arm raises it. -/
  | notModelled (mnemonic : String)
  /-- Raised by `step` when the host has supplied no line: without a call of `processLine` there is no step
  (R4, R14). Safe. Log entry 4. -/
  | noLine
  deriving DecidableEq, Repr

/-- The outcome of a step of this machine. -/
abbrev Outcome := Host.Outcome State Fault Refusal

/-- The machine right after reset (R21, R210). The two ports are empty: DESIGN CHOICE, log entries 1 and 2. -/
def State.reset : State where
  baseAddress := 0
  mem := []
  startAddress := .absent
  eofFlag := false
  lines := []
  result := none

end Sys2Proof.Machine
end

