-- ==== Sys2Proof/Machine/Ops.lean ====
section
/-! DEFINITION. The named operations: the memory store (spec/20), the register writes (spec/10), the address
machine (spec/43), the end of a step with success or with an error (spec/60), the host's reads and reset. -/

namespace Sys2Proof.Machine

/-! ## The memory store -/

/-- Every listed address is at least `lo`, they rise strictly, and all lie in the 2^32 cells (R30). -/
def Memory.risingFrom (lo : Nat) : Memory → Bool
  | [] => true
  | (a, _) :: rest => decide (lo ≤ a) && decide (a < Config.addressSpace) && Memory.risingFrom (a + 1) rest

/-- The canonical form of the image: addresses strictly rising, "keys unique" (R16, R31). -/
def Memory.wf (m : Memory) : Bool := Memory.risingFrom 0 m

/-- `get(address)`: the byte of a populated address, `none` for an unpopulated one (R34). -/
def Memory.get : Memory → Addr → Option Byte
  | [], _ => none
  | (k, v) :: rest, a => if k = a.toNat then some v else Memory.get rest a

/-- The image with a cell inserted in address order. -/
def Memory.insert : Memory → Addr → Byte → Memory
  | [], a, v => [(a.toNat, v)]
  | (k, w) :: rest, a, v => if a.toNat < k then (a.toNat, v) :: (k, w) :: rest else (k, w) :: Memory.insert rest a v

/-- `put(address, byte)`: inserts if absent; `none` is `AddressOverlap`, the image unchanged (R33). -/
def Memory.put (m : Memory) (a : Addr) (v : Byte) : Option Memory :=
  if (Memory.get m a).isSome then none else some (Memory.insert m a v)

/-! ## The one writer of each state element -/

/-- Writes `baseAddress` (R11). -/
def State.setBaseAddress (s : State) (v : Word) : State := { s with baseAddress := v }

/-- Writes the memory image (R16). -/
def State.setMem (s : State) (m : Memory) : State := { s with mem := m }

/-- Writes `startAddress` (R13). -/
def State.setStartAddress (s : State) (a : StartAddress) : State := { s with startAddress := a }

/-- Writes `eofFlag` (R15). -/
def State.setEofFlag (s : State) (b : Bool) : State := { s with eofFlag := b }

/-- Writes the queue of lines the host will supply (R14, log entry 1). -/
def State.setLines (s : State) (ls : List Line) : State := { s with lines := ls }

/-- Drives the result port (R161, log entry 2). -/
def State.setResult (s : State) (r : StepResult) : State := { s with result := some r }

/-! ## The end of a step -/

/-- `return Ok` (00_scope.md section 7): the step ends with the success result. -/
def returnOk (s : State) : Outcome := .next (s.setResult .ok)

/-- Taking an error, the one shared operation: the step ends at once with `Err(kind)`; nothing is saved, no mode
changes, no vector is consulted, and writes already made stay made (R190). The machine then waits for the next
line, so this is a next state (R192, log entry 3). There is no return-from-error operation (R192). -/
def raiseError (kind : ErrKind) (s : State) : Outcome := .next (s.setResult (.err kind))

/-! ## The address machine (R120 to R125, R164) -/

/-- ESA: the base for a segment value, `zext_32(seg) << 4` (R121). -/
def segmentBase (seg : Half) : Word := seg.setWidth 32 <<< 4

/-- ELA: the base for a linear value, `zext_32(upper) << 16` (R122). -/
def linearBase (upper : Half) : Word := upper.setWidth 32 <<< 16

/-- The advance of the base after a DATA record of `n` payload bytes, modulo 2^32 (R125, D5, log entry 10). -/
def advanceBase (base : Word) (n : Nat) : Word := base + BitVec.ofNat 32 n

/-- The absolute address of payload byte `i`: `((base & 0xFFFF0000) + zext_32(off) + i) mod 2^32` (R123, D5, log
entries 10 and 23). -/
def dataAddress (base : Word) (off : Half) (i : Nat) : Addr :=
  (base &&& 0xFFFF0000#32) + off.setWidth 32 + BitVec.ofNat 32 i

/-- The commands of the address machine's port (R164). -/
inductive BaseCommand where
  | setSeg (value : Half)
  | setLin (value : Half)
  | advance (count : Byte)
  deriving DecidableEq, Repr

/-- The next `baseAddress` on a command of the port (R164). -/
def baseAfterCommand (base : Word) : BaseCommand → Word
  | .setSeg v => segmentBase v
  | .setLin v => linearBase v
  | .advance n => advanceBase base n.toNat

/-! ## Writing the payload of a DATA record -/

/-- Puts the bytes from payload index `i` on at their addresses, in increasing index (R136, D8, log entry 13),
`base` sampled once. The flag is false when a put collided: the bytes before it are in the image, the
colliding byte and those after it are not written (R38). -/
def storeFrom (base : Word) (off : Half) (i : Nat) : List Byte → Memory → Memory × Bool
  | [], m => (m, true)
  | b :: rest, m =>
    match Memory.put m (dataAddress base off i) b with
    | none => (m, false)
    | some m' => storeFrom base off (i + 1) rest m'

/-! ## The host's reads between steps (R22) -/

/-- `get(address)` of the readback contract (R34). -/
def hostGet (s : State) (a : Addr) : Option Byte := Memory.get s.mem a

/-- The enumeration of all populated pairs, as a set: no order is exposed (R35, U6, log entry 24). -/
def hostEnumerate (s : State) : Finset (Addr × Byte) :=
  (s.mem.map fun c => (BitVec.ofNat 32 c.1, c.2)).toFinset

/-- The end-of-file flag, a read-only query surface (R22). -/
def hostEofFlag (s : State) : Bool := s.eofFlag

/-- The start address, a read-only query surface (R22). -/
def hostStartAddress (s : State) : StartAddress := s.startAddress

/-- The reset input: a new session, all four elements together (R210, R211, D11, log entry 16). The lines not
yet supplied are the host's and stay. -/
def newSession (s : State) : State := State.reset.setLines s.lines

end Sys2Proof.Machine
end

