-- ==== Sys2Proof/Machine/Operands.lean ====
section
/-! DEFINITION. The operand forms of the records' payloads: a field exists only when the payload has exactly the
length its record type demands (R59 to R62), and is big-endian (R56, R107). -/

namespace Sys2Proof.Machine

/-- The 16-bit operand of ESA and ELA: the payload is exactly 2 bytes, else none (R59, R61, R121, R122). -/
def operand16 (payload : List Byte) : Option Half :=
  if payload.length = 2 then be16 payload 0 else none

/-- The operands `cs` and `ip` of SSA: the payload is exactly 4 bytes, `cs` at payload offset 0 and `ip` at
payload offset 2, else none (R60, R139). -/
def operandCsIp (payload : List Byte) : Option (Half × Half) :=
  if payload.length = 4 then
    match be16 payload 0, be16 payload 2 with
    | some cs, some ip => some (cs, ip)
    | _, _ => none
  else none

/-- The 32-bit operand `eip` of SLA: the payload is exactly 4 bytes, else none (R62, R140). -/
def operandEip (payload : List Byte) : Option Word :=
  if payload.length = 4 then be32 payload 0 else none

/-- The canonical end-of-file record, the 5 bytes 0, 0, 0, 1, 0xFF (R58). -/
def eofTerminator : Record := [0x00, 0x00, 0x00, 0x01, 0xFF]

/-- EOF's shape test: the whole record, length and checksum bytes included, is the canonical terminator
(R137). -/
def isEofTerminator (offset : Half) (payload : List Byte) : Bool :=
  recordOf (.eof offset payload) == eofTerminator

end Sys2Proof.Machine
end

