-- ==== Sys2Proof/Machine/Flags.lean ====
section
/-! DEFINITION. The status the block has: the end-of-file flag and the presence tag of the start address (R18).
There are no arithmetic flags. And the numeric forms the spec offers for a tag and for a result port. -/

namespace Sys2Proof.Machine

/-- The duplicate test of SSA and SLA: the start address is already set, either variant (R139, R140). -/
def startIsSet (s : State) : Bool := s.startAddress != .absent

/-- The duplicate test of EOF (R137). -/
def eofIsSet (s : State) : Bool := s.eofFlag

/-- The 2-bit tag of the optional packing of the start address (R13, D16, log entry 22). Tag 3 never occurs. -/
def startTag : StartAddress → BitVec 2
  | .absent => 0
  | .segmentCsIp _ _ => 1
  | .linear _ => 2

/-- The 32-bit value field of the packing: `{cs, ip}` or `eip`, meaningless and so without a value when absent
(R13, D16, log entry 22). -/
def startValue : StartAddress → Option Word
  | .absent => none
  | .segmentCsIp cs ip => some (cs ++ ip)
  | .linear eip => some eip

/-- The 4-bit code of a result (R175's table, R188, D4, log entry 9). No rule and no step depends on it. -/
def resultCode : StepResult → BitVec 4
  | .ok => 0
  | .err (.malformedLine .missingMarker) => 1
  | .err (.malformedLine .badLengthParity) => 2
  | .err (.malformedLine .tooShort) => 3
  | .err (.malformedLine .invalidCharacter) => 4
  | .err .recordLengthMismatch => 5
  | .err .unknownRecordType => 6
  | .err .checksumMismatch => 7
  | .err .invalidEndOfFileRecord => 8
  | .err .duplicateEndOfFileRecord => 9
  | .err .badExtendedSegmentAddressRecord => 10
  | .err .badExtendedLinearAddressRecord => 11
  | .err .badStartSegmentAddressRecord => 12
  | .err .badStartLinearAddressRecord => 13
  | .err .duplicateStartAddressRecord => 14
  | .err .addressOverlap => 15

end Sys2Proof.Machine
end

