-- ==== Sys2Proof/Machine/DataRecord.lean ====
section
/-! DEFINITION. The DATA record (R136). -/

namespace Sys2Proof.Machine

/-- DATA (R136): writes every payload byte at its address, in increasing index; on a collision the bytes before
it stay, the base is not advanced (D9, log entry 14) and the result is `AddressOverlap`; else the base advances
by the payload length (R125). The start address and the end-of-file flag are neither read nor written. -/
def execData (offset : Half) (payload : List Byte) (s : State) : Outcome :=
  match storeFrom s.baseAddress offset 0 payload s.mem with
  | (m, true) => returnOk ((s.setMem m).setBaseAddress (advanceBase s.baseAddress payload.length))
  | (m, false) => raiseError .addressOverlap (s.setMem m)

end Sys2Proof.Machine
end

