-- ==== Sys2Proof/Machine/EndOfFile.lean ====
section
/-! DEFINITION. The EOF record (R137). -/

namespace Sys2Proof.Machine

/-- EOF (R137): the shape test first, then the duplicate test (D7, log entry 12), then the flag is set. -/
def execEof (offset : Half) (payload : List Byte) (s : State) : Outcome :=
  if isEofTerminator offset payload = false then raiseError .invalidEndOfFileRecord s
  else if eofIsSet s then raiseError .duplicateEndOfFileRecord s
  else returnOk (s.setEofFlag true)

end Sys2Proof.Machine
end

