-- ==== Sys2Proof/Machine/ExtendedAddress.lean ====
section
/-! DEFINITION. The two records that set the base address: ESA (R121) and ELA (R122). Each replaces the previous
base (R128). The offset field is not examined (R142, D20, log entry 20). -/

namespace Sys2Proof.Machine

/-- ESA (R121): the base becomes the 16-bit payload value shifted left by 4. -/
def execEsa (_offset : Half) (payload : List Byte) (s : State) : Outcome :=
  match operand16 payload with
  | some seg => returnOk (s.setBaseAddress (segmentBase seg))
  | none => raiseError .badExtendedSegmentAddressRecord s

/-- ELA (R122): the base becomes the 16-bit payload value shifted left by 16. -/
def execEla (_offset : Half) (payload : List Byte) (s : State) : Outcome :=
  match operand16 payload with
  | some upper => returnOk (s.setBaseAddress (linearBase upper))
  | none => raiseError .badExtendedLinearAddressRecord s

end Sys2Proof.Machine
end

