-- ==== Sys2Proof/Machine/StartRecords.lean ====
section
/-! DEFINITION. The two records that set the start address: SSA (R139) and SLA (R140). Shape test first, duplicate
test second (D7, log entry 12). The offset field is not examined (R142, D20, log entry 20). -/

namespace Sys2Proof.Machine

/-- The part SSA and SLA share: refuse a second start address of either variant, else set it (R139, R140,
R186). -/
def setStartOnce (a : StartAddress) (s : State) : Outcome :=
  if startIsSet s then raiseError .duplicateStartAddressRecord s else returnOk (s.setStartAddress a)

/-- SSA (R139): the start address becomes `SegmentCsIp`. -/
def execSsa (_offset : Half) (payload : List Byte) (s : State) : Outcome :=
  match operandCsIp payload with
  | some (cs, ip) => setStartOnce (.segmentCsIp cs ip) s
  | none => raiseError .badStartSegmentAddressRecord s

/-- SLA (R140): the start address becomes `Linear`. -/
def execSla (_offset : Half) (payload : List Byte) (s : State) : Outcome :=
  match operandEip payload with
  | some eip => setStartOnce (.linear eip) s
  | none => raiseError .badStartLinearAddressRecord s

end Sys2Proof.Machine
end

