-- ==== Sys2Proof/Machine/Dispatch.lean ====
section
/-! DEFINITION. The record-type dispatcher: a closed, exhaustive six-way selection (R135). -/

namespace Sys2Proof.Machine

def exec (i : Instr) (s : State) : Host.Outcome State Fault Refusal :=
  match i with
  | .data offset payload => Sys2Proof.Machine.execData offset payload s
  | .eof offset payload => Sys2Proof.Machine.execEof offset payload s
  | .esa offset payload => Sys2Proof.Machine.execEsa offset payload s
  | .ssa offset payload => Sys2Proof.Machine.execSsa offset payload s
  | .ela offset payload => Sys2Proof.Machine.execEla offset payload s
  | .sla offset payload => Sys2Proof.Machine.execSla offset payload s

end Sys2Proof.Machine
end

