-- ==== Sys2Proof/Machine/ProcessLine.lean ====
section
/-! DEFINITION. The single entry point `processLine` (R160) and the runs made of it (R5). -/

namespace Sys2Proof.Machine

/-- `processLine(line)` (R160): validate the line, decode it, validate the record, dispatch. An error before the
dispatch leaves the session state as it was. -/
def processLine (line : Line) (s : State) : Outcome :=
  match decodeLine line with
  | .error kind => raiseError kind s
  | .ok i => exec i s

/-- `processLine` on each line in supply order, on the state each leaves (R5). It stops only where a step gives
no next state. -/
def processLines : List Line → State → Outcome
  | [], s => .next s
  | line :: rest, s =>
    match processLine line s with
    | .next t => processLines rest t
    | .fault r => .fault r
    | .refused r => .refused r

end Sys2Proof.Machine
end

