-- ==== Sys2Proof/Machine/Step.lean ====
section
/-! DEFINITION. One step: the host supplies its next line and the block processes it (R4, R14, R161). -/

namespace Sys2Proof.Machine

/-- One step. The next line leaves the host's queue and is processed; with no line there is no step (log entries
1 and 4). -/
def step (s : State) : Host.Outcome State Fault Refusal :=
  match s.lines with
  | [] => .refused .noLine
  | line :: rest => processLine line (s.setLines rest)

/-- The state in which the host's next line is that of the table word `w` (log entries 5 and 6). -/
def State.withFetchWord (s : State) (nbits w : Nat) : State :=
  s.setLines (lineOfTableWord nbits w :: s.lines)

end Sys2Proof.Machine
end

