-- ==== Sys2Proof/Safety.lean ====
section
/-! DEFINITION. What counts as a safe run. The block keeps no error latch, so "every step returned Ok" is kept
here, outside its state (R192, R218, D10). -/

namespace Sys2Proof.Machine

/-- The invariant of every state: the memory image has its canonical form (R16, R31). -/
abbrev State.Inv (s : State) : Prop := Memory.wf s.mem = true

/-- The step that led to this state returned `Ok`. -/
def State.endedOk (s : State) : Bool := s.result == some .ok

/-- A clean run: each instruction in turn gives a next state whose result is `Ok`; none as soon as one does not
(R218). -/
def execAllOk : List Instr → State → Option State
  | [], s => some s
  | i :: rest, s =>
    match exec i s with
    | .next t => if t.endedOk then execAllOk rest t else none
    | .fault _ => none
    | .refused _ => none

/-- Every byte populated in the first state is populated with the same byte in the second (R32). -/
def KeepsBytes (s t : State) : Prop := ∀ a v, Memory.get s.mem a = some v → Memory.get t.mem a = some v

/-! ## The cause of each error, and the order in which causes count

Each cause is read from the line's characters, the bytes its digit pairs spell, and the state, as the table of
R175 words it; none of them calls the decoder or a meaning. -/

/-- `rec` is what the digit pairs after the line's first character spell. This asks no check of the line: a cause is
a reason on its own, whatever other reasons there are. On a well-formed line it is what `bytesFromHexRun` gives. -/
def Spells (line : Line) (rec : Record) : Prop := bytesFromPairs (line.drop 1) = some rec

/-- The cause column of R175's table: the line and the state give a reason for the error kind, whatever other
reasons they give. -/
def Cause (line : Line) (s : State) : ErrKind → Prop
  | .malformedLine .missingMarker => line.head? ≠ some markerChar
  | .malformedLine .badLengthParity => line.length % 2 = 0
  | .malformedLine .tooShort => line.length < 11
  | .malformedLine .invalidCharacter => ∃ c ∈ line.drop 1, isHexDigit c = false
  | .recordLengthMismatch => ∃ rec n, Spells line rec ∧ rec[0]? = some n ∧ rec.length ≠ n.toNat + 5
  | .unknownRecordType => ∃ rec ty, Spells line rec ∧ rec[3]? = some ty ∧ 0x05 < ty.toNat
  | .checksumMismatch => ∃ rec, Spells line rec ∧ byteSum rec % 256 ≠ 0
  | .invalidEndOfFileRecord => ∃ rec, Spells line rec ∧ rec[3]? = some 0x01 ∧ rec ≠ [0x00, 0x00, 0x00, 0x01, 0xFF]
  | .duplicateEndOfFileRecord => Spells line [0x00, 0x00, 0x00, 0x01, 0xFF] ∧ s.eofFlag = true
  | .badExtendedSegmentAddressRecord => ∃ rec, Spells line rec ∧ rec[3]? = some 0x02 ∧ rec[0]? ≠ some 2
  | .badExtendedLinearAddressRecord => ∃ rec, Spells line rec ∧ rec[3]? = some 0x04 ∧ rec[0]? ≠ some 2
  | .badStartSegmentAddressRecord => ∃ rec, Spells line rec ∧ rec[3]? = some 0x03 ∧ rec[0]? ≠ some 4
  | .badStartLinearAddressRecord => ∃ rec, Spells line rec ∧ rec[3]? = some 0x05 ∧ rec[0]? ≠ some 4
  | .duplicateStartAddressRecord => ∃ rec, Spells line rec ∧ (rec[3]? = some 0x03 ∨ rec[3]? = some 0x05) ∧
      rec[0]? = some 4 ∧ s.startAddress ≠ .absent
  | .addressOverlap => ∃ rec n off i v, Spells line rec ∧ rec[3]? = some 0x00 ∧ rec[0]? = some n ∧ recOffset rec = some off ∧
      i < n.toNat ∧ Memory.get s.mem (dataAddress s.baseAddress off i) = some v

/-- The place of each error kind in the fixed order of checks (R189): the lower place is reported. -/
def priority : ErrKind → Nat
  | .malformedLine .missingMarker => 1
  | .malformedLine .badLengthParity => 2
  | .malformedLine .tooShort => 3
  | .malformedLine .invalidCharacter => 4
  | .recordLengthMismatch => 5
  | .unknownRecordType => 6
  | .checksumMismatch => 7
  | .invalidEndOfFileRecord => 8
  | .badExtendedSegmentAddressRecord => 8
  | .badExtendedLinearAddressRecord => 8
  | .badStartSegmentAddressRecord => 8
  | .badStartLinearAddressRecord => 8
  | .duplicateEndOfFileRecord => 9
  | .duplicateStartAddressRecord => 9
  | .addressOverlap => 9

end Sys2Proof.Machine
end

