-- ==== Sys2Proof/Certificates/Slice0/Obligations.lean ====
section
/-! DEFINITION. The statements for the provers. Every one is about every state and every operand, those no run
reaches included. "Model's choice" in a docstring names the decision of the spec, or the log entry, on which a
clause rests. -/

open Sys2Proof Sys2Proof.Machine

/-! ## Reset -/

/-- R21: at the start of a session every element has the value of R10's table. -/
def Obligations.ResetIsTheInitialSession : Prop :=
  State.reset.baseAddress = 0 ∧ (∀ a, hostGet State.reset a = none) ∧ hostEnumerate State.reset = ∅ ∧
    hostStartAddress State.reset = .absent ∧ hostEofFlag State.reset = false

/-- R210, R211: a new session puts all four elements at their initial values together and keeps the host's lines.
Model's choice: that this is the reset input (D11, log entry 16). -/
def Obligations.NewSessionRestoresReset : Prop :=
  ∀ s : State, (newSession s).baseAddress = 0 ∧ (∀ a, hostGet (newSession s) a = none) ∧
    (newSession s).startAddress = .absent ∧ (newSession s).eofFlag = false ∧ (newSession s).lines = s.lines ∧
    (newSession s).Inv

/-! ## Codec and validator -/

/-- R55: the byte of a pair is `(nibble(hi)<<4) | nibble(lo)`, the first character's nibble in bits 7:4, the second's
in bits 3:0. -/
def Obligations.HexPairSpellsHighNibbleFirst : Prop :=
  ∀ (hi lo : Char8) (h l : Nibble), charToNibble hi = some h → charToNibble lo = some l →
    ∃ b, byteFromHexPair hi lo = some b ∧ b = (h.setWidth 8 <<< 4) ||| l.setWidth 8 ∧
      b.extractLsb' 4 4 = h ∧ b.extractLsb' 0 4 = l

/-- R80, R81, R94: the codec has a result exactly on the 22 hex digits, and it is the digit's value in either case.
Model's choice: the ASCII codes (D2, log entry 7); no result elsewhere (D19, log entry 19). -/
def Obligations.CodecIsDefinedExactlyOnHexDigits : Prop :=
  (∀ c, (charToNibble c).isSome = isHexDigit c) ∧
  (∀ d, d < 10 → charToNibble (BitVec.ofNat 8 (0x30 + d)) = some (BitVec.ofNat 4 d)) ∧
  (∀ d, d < 6 → charToNibble (BitVec.ofNat 8 (0x41 + d)) = some (BitVec.ofNat 4 (10 + d)) ∧
    charToNibble (BitVec.ofNat 8 (0x61 + d)) = some (BitVec.ofNat 4 (10 + d))) ∧
  ((List.range 256).filter fun n => isHexDigit (BitVec.ofNat 8 n)).length = 22

/-- R90 to R94: which of the five results `validateLine` gives, the checks in order. Model's choice: the empty line
counts as one without a marker (D6, log entry 11). -/
def Obligations.ValidatorReportsTheFirstFailingCheck : Prop :=
  ∀ line : Line,
    (validateLine line = .error (.malformedLine .missingMarker) ↔ line.head? ≠ some markerChar) ∧
    (validateLine line = .error (.malformedLine .badLengthParity) ↔
      line.head? = some markerChar ∧ line.length % 2 = 0) ∧
    (validateLine line = .error (.malformedLine .tooShort) ↔
      line.head? = some markerChar ∧ line.length % 2 = 1 ∧ line.length < 11) ∧
    (validateLine line = .error (.malformedLine .invalidCharacter) ↔
      line.head? = some markerChar ∧ line.length % 2 = 1 ∧ 11 ≤ line.length ∧ ∃ c ∈ line.drop 1, isHexDigit c = false) ∧
    (validateLine line = .ok () ↔
      line.head? = some markerChar ∧ line.length % 2 = 1 ∧ 11 ≤ line.length ∧ ∀ c ∈ line.drop 1, isHexDigit c = true)

/-- R83: a well-formed line decodes; the record has `(len(line) - 1) / 2` bytes, at least 5, and byte `r` is the pair
at characters `1 + 2r` and `2 + 2r`, the marker skipped. -/
def Obligations.ValidatedLineDecodesPairByPair : Prop :=
  ∀ l : Line, validateLine l = .ok () →
    ∃ rec, bytesFromHexRun l = some rec ∧ rec.length = (l.length - 1) / 2 ∧ 5 ≤ rec.length ∧
      ∀ r, r < rec.length → ∃ hi lo b, l[2 * r + 1]? = some hi ∧ l[2 * r + 2]? = some lo ∧
        byteFromHexPair hi lo = some b ∧ rec[r]? = some b

/-- R82, R83, R213, U1: the pair and the run have a result exactly where their precondition holds: two hex digits, a
well-formed line. Model's choice: no result elsewhere (D19, log entry 19). -/
def Obligations.HexRunIsDefinedExactlyOnWellFormedLines : Prop :=
  (∀ hi lo : Char8, (byteFromHexPair hi lo).isSome = (isHexDigit hi && isHexDigit lo)) ∧
  (∀ l : Line, (bytesFromHexRun l).isSome = true ↔ validateLine l = .ok ())

/-- R66: two lines that differ only in letter case decode alike and have the same effect in every state. -/
def Obligations.LetterCaseCarriesNoMeaning : Prop :=
  ∀ l₁ l₂ : Line, l₁.map upperCase = l₂.map upperCase →
    decodeLine l₁ = decodeLine l₂ ∧ ∀ s, processLine l₁ s = processLine l₂ s

/-! ## Record model -/

/-- R103, R107: the offset is the big-endian value of bytes 1 and 2; a 16-bit or 32-bit field is the big-endian
value of its bytes, an 8-bit field the byte. -/
def Obligations.FieldsAreBigEndian : Prop :=
  (∀ (rec : Record) (a b : Byte), rec[1]? = some a → rec[2]? = some b →
    ∃ o, recOffset rec = some o ∧ o.toNat = a.toNat * 256 + b.toNat) ∧
  (∀ (rec : Record) (k : Nat), be8 rec k = rec[k]?) ∧
  (∀ (rec : Record) (k : Nat) (a b : Byte), rec[k]? = some a → rec[k + 1]? = some b →
    ∃ v, be16 rec k = some v ∧ v.toNat = a.toNat * 256 + b.toNat) ∧
  (∀ (rec : Record) (k : Nat) (a b c d : Byte), rec[k]? = some a → rec[k + 1]? = some b → rec[k + 2]? = some c →
    rec[k + 3]? = some d →
    ∃ v, be32 rec k = some v ∧ v.toNat = ((a.toNat * 256 + b.toNat) * 256 + c.toNat) * 256 + d.toNat)

/-- Model's choice: an extraction that runs past the end of the record has no result (the source states none, U10;
log entry 27). -/
def Obligations.ExtractionPastTheEndHasNoResult : Prop :=
  ∀ (rec : Record) (k : Nat), (be8 rec k = none ↔ rec.length < k + 1) ∧ (be16 rec k = none ↔ rec.length < k + 2) ∧
    (be32 rec k = none ↔ rec.length < k + 4)

/-- R106: after the size check the payload is the `length` bytes from byte 4, and the checksum byte the one after it.
Model's choice: no payload where the size check fails (R106 calls it meaningless there; log entry 27). -/
def Obligations.PayloadNeedsTheSizeCheck : Prop :=
  ∀ (rec : Record) (n : Byte), rec[0]? = some n →
    (rec.length = n.toNat + 5 → ∃ p, recPayload rec = some p ∧ p.length = n.toNat ∧
      (∀ i, i < n.toNat → p[i]? = rec[4 + i]?) ∧ rec.getLast? = rec[4 + n.toNat]?) ∧
    (rec.length ≠ n.toNat + 5 → recPayload rec = none)

/-- R104: size, then type, then checksum; the first failure is the result. -/
def Obligations.StructureChecksRunInOrder : Prop :=
  ∀ (rec : Record) (n : Byte), rec[0]? = some n →
    (validateStructure rec = .error .recordLengthMismatch ↔ rec.length ≠ n.toNat + 5) ∧
    (validateStructure rec = .error .unknownRecordType ↔ rec.length = n.toNat + 5 ∧ recType rec = none) ∧
    (validateStructure rec = .error .checksumMismatch ↔
      rec.length = n.toNat + 5 ∧ recType rec ≠ none ∧ byteSum rec % 256 ≠ 0) ∧
    (validateStructure rec = .ok () ↔ rec.length = n.toNat + 5 ∧ recType rec ≠ none ∧ byteSum rec % 256 = 0)

/-- R50, R63, R102: six codes, 0 to 5 in the order of R50's table; every other value selects nothing. Model's choice:
the codes 2 to 5 (D3, log entry 8). -/
def Obligations.TypeCodesAreZeroToFive : Prop :=
  (recordTypes.map recordTypeCode = [0x00, 0x01, 0x02, 0x03, 0x04, 0x05]) ∧
  (∀ t, recordTypeOf (recordTypeCode t) = some t) ∧ (∀ b, recordTypeOf b = none ↔ 5 < b.toNat)

/-- R105, R108: the checksum test is the 8-bit accumulator's; the order of the bytes does not matter; exactly one last
byte makes a record valid, the two's complement of the sum of the others; changing one byte of a valid record makes
it invalid; all zeros is valid. -/
def Obligations.ChecksumIsAnEightBitAccumulator : Prop :=
  (∀ rec, checksumValid rec = true ↔ checksumAccumulator rec = 0) ∧
  (∀ r₁ r₂ : Record, r₁.Perm r₂ → checksumValid r₁ = checksumValid r₂) ∧
  (∀ (body : List Byte) (c : Byte), checksumValid (body ++ [c]) = true ↔ c.toNat = (256 - byteSum body % 256) % 256) ∧
  (∀ (rec : Record) (i : Nat) (old new : Byte), rec[i]? = some old → new ≠ old → checksumValid rec = true →
    checksumValid (rec.set i new) = false) ∧
  (∀ n, checksumValid (List.replicate n 0) = true)

/-- R53, R54, R101 to R106, R135: a record decodes to an instruction exactly when it is that instruction's record,
and its fields stand at their bytes. Model's choice: the codes 2 to 5 in the type byte (D3, log entry 8). -/
def Obligations.DecodedFieldsStandAtTheirBytes : Prop :=
  ∀ (rec : Record) (i : Instr), decodeRecord rec = .ok i ↔
    (i.wellFormed = true ∧ rec.length = i.payload.length + 5 ∧ rec[0]? = some (BitVec.ofNat 8 i.payload.length) ∧
      rec[1]? = some (i.offset.extractLsb' 8 8) ∧ rec[2]? = some (i.offset.extractLsb' 0 8) ∧
      rec[3]? = some (recordTypeCode i.recordType) ∧ (∀ k, k < i.payload.length → rec[4 + k]? = i.payload[k]?) ∧
      byteSum rec % 256 = 0)

/-- R64, R109: a validated line passes the length check exactly when its length is twice the length byte plus 11; a
line that decodes carries the payload its length byte declares. -/
def Obligations.LineLengthMatchesDeclaredLength : Prop :=
  ∀ (line : Line) (rec : Record) (n : Byte), validateLine line = .ok () → bytesFromHexRun line = some rec →
    rec[0]? = some n →
    (rec.length = n.toNat + 5 ↔ line.length = 2 * n.toNat + 11) ∧
    (∀ i, decodeLine line = .ok i → rec.length = n.toNat + 5 ∧ i.payload.length = n.toNat)

/-! ## Encoding -/

/-- Decode and encode agree, for every well-formed instruction with every operand. Model's choice: upper-case digits
from the encoder (log entry 25), the codes 2 to 5 (D3, log entry 8). -/
def Obligations.DecodeOfEncodeIsTheInstruction : Prop :=
  ∀ i : Instr, i.wellFormed = true → decodeLine (encode i) = .ok i

/-- A line that decodes is, in upper case, the encoding of what it decodes to: no line has two meanings and no bit of
it is dropped. Model's choice: upper-case digits from the encoder (log entry 25). -/
def Obligations.EncodeOfDecodeIsTheLineInUpperCase : Prop :=
  ∀ (line : Line) (i : Instr), decodeLine line = .ok i → i.wellFormed = true ∧ encode i = line.map upperCase

/-- One word for each record type, spelled out from R65's examples (`:00000001FF` and the others). Model's choice: the
codes 2 to 5 of ESA, SSA, ELA and SLA (D3, log entry 8); the ASCII codes of all characters (D2, log entry 7). -/
def Obligations.LinesOfTheSpecDecode : Prop :=
  let line : String → Line := fun t => t.toList.map fun c => BitVec.ofNat 8 c.toNat
  decodeLine (line ":0300300002337A1E") = .ok (.data 0x0030 [0x02, 0x33, 0x7A]) ∧
  decodeLine (line ":00000001FF") = .ok (.eof 0 []) ∧
  decodeLine (line ":020000021200EA") = .ok (.esa 0 [0x12, 0x00]) ∧
  decodeLine (line ":0400000300003800C1") = .ok (.ssa 0 [0x00, 0x00, 0x38, 0x00]) ∧
  decodeLine (line ":020000041234B4") = .ok (.ela 0 [0x12, 0x34]) ∧
  decodeLine (line ":04000005000000CD2A") = .ok (.sla 0 [0x00, 0x00, 0x00, 0xCD])

/-! ## The memory store -/

/-- R33: `put` inserts if absent, and fails on a populated address whatever byte it holds; an insertion changes no
other address; only a DATA record writes the image. -/
def Obligations.PutInsertsOnlyIfAbsent : Prop :=
  (∀ (m : Memory) (a : Addr) (v : Byte),
    (Memory.get m a = none → ∃ m', Memory.put m a v = some m' ∧ Memory.get m' a = some v ∧
      ∀ b, b ≠ a → Memory.get m' b = Memory.get m b) ∧
    (∀ w, Memory.get m a = some w → Memory.put m a v = none)) ∧
  (∀ (line : Line) (s t : State), processLine line s = .next t → t.mem ≠ s.mem →
    ∃ o p, decodeLine line = .ok (.data o p))

/-- R16, R31: the image is a map and nothing more: two canonical images that read alike at every address are equal,
whatever the order in which they were populated. -/
def Obligations.ImagesThatReadAlikeAreEqual : Prop :=
  ∀ m₁ m₂ : Memory, Memory.wf m₁ = true → Memory.wf m₂ = true →
    (∀ a, Memory.get m₁ a = Memory.get m₂ a) → m₁ = m₂

/-- R35: the set enumerated is exactly the set of populated pairs. -/
def Obligations.EnumerationIsThePopulatedSet : Prop :=
  ∀ s : State, s.Inv → ∀ (a : Addr) (v : Byte), (a, v) ∈ hostEnumerate s ↔ hostGet s a = some v

/-- The image has its canonical form at reset. -/
def Obligations.ResetImageIsCanonical : Prop := State.reset.Inv

/-- Every step from every canonical state, by any line, keeps the image canonical (R16, R31). -/
def Obligations.StepKeepsImageCanonical : Prop := ∀ s t : State, s.Inv → step s = .next t → t.Inv

/-- R32: an address once populated stays populated with the same byte for the rest of the session: over every run of
lines, from every state, whatever the results. -/
def Obligations.PopulatedBytesNeverChange : Prop :=
  ∀ (ls : List Line) (s t : State), processLines ls s = .next t → KeepsBytes s t

/-! ## DATA -/

/-- R123, R124: the address of payload byte `i` as a number: only bits 31:16 of the base take part, the sum carries
across 64 KiB lines, distinct indices below 2^32 have distinct addresses, and the bytes are consecutive. Model's
choice: wrap modulo 2^32 (D5, log entry 10). -/
def Obligations.DataAddressIsBaseHighHalfPlusOffset : Prop :=
  (∀ (base : Word) (off : Half) (i : Nat),
    (dataAddress base off i).toNat = (base.toNat / 65536 * 65536 + off.toNat + i) % 4294967296) ∧
  (∀ (base : Word) (off : Half) (i j : Nat), i < 255 → j < 255 → i ≠ j → dataAddress base off i ≠ dataAddress base off j) ∧
  (∀ (base : Word) (off : Half) (i : Nat), dataAddress base off (i + 1) = dataAddress base off i + 1)

/-- R136, R123, R125: a DATA record none of whose target addresses is populated runs to its end: the result is `Ok`,
payload byte `i` is at its address, every other address reads as before, the base has advanced by the payload
length, and nothing else changed. Model's choice: wrap modulo 2^32 (D5, log entry 10). -/
def Obligations.DataStoresItsPayload : Prop :=
  ∀ (off : Half) (payload : List Byte) (s : State), payload.length ≤ 255 →
    (∀ i, i < payload.length → Memory.get s.mem (dataAddress s.baseAddress off i) = none) →
    ∃ t, exec (.data off payload) s = .next t ∧ t.result = some .ok ∧
      t.baseAddress.toNat = (s.baseAddress.toNat + payload.length) % 4294967296 ∧
      (∀ i, i < payload.length → Memory.get t.mem (dataAddress s.baseAddress off i) = payload[i]?) ∧
      (∀ a, (∀ i, i < payload.length → a ≠ dataAddress s.baseAddress off i) → Memory.get t.mem a = Memory.get s.mem a) ∧
      t.startAddress = s.startAddress ∧ t.eofFlag = s.eofFlag ∧ t.lines = s.lines

/-- R136, R38, R187: a DATA record whose lowest colliding payload index is `k` ends in `AddressOverlap`: bytes `0` to
`k - 1` are stored, every other address, the colliding one and those after it included, reads as before, and the
base, the start address and the flag are unchanged. Model's choice: increasing index (D8, log entry 13), no advance
(D9, log entry 14). -/
def Obligations.DataOverlapKeepsThePrefix : Prop :=
  ∀ (off : Half) (payload : List Byte) (s : State) (k : Nat) (w : Byte), payload.length ≤ 255 → k < payload.length →
    (∀ i, i < k → Memory.get s.mem (dataAddress s.baseAddress off i) = none) →
    Memory.get s.mem (dataAddress s.baseAddress off k) = some w →
    ∃ t, exec (.data off payload) s = .next t ∧ t.result = some (.err .addressOverlap) ∧
      (∀ i, i < k → Memory.get t.mem (dataAddress s.baseAddress off i) = payload[i]?) ∧
      (∀ a, (∀ i, i < k → a ≠ dataAddress s.baseAddress off i) → Memory.get t.mem a = Memory.get s.mem a) ∧
      t.baseAddress = s.baseAddress ∧ t.startAddress = s.startAddress ∧ t.eofFlag = s.eofFlag ∧ t.lines = s.lines

/-- R136's corner case, the source's example S2: the same nonempty DATA record run again collides at its byte 0 and
changes nothing but the result port, as long as the advance did not carry into bit 16 of the base. Model's choice: no
advance of the base on the collision (D9, log entry 14); the address formula taken literally (log entry 23). -/
def Obligations.RepeatedDataRecordOverlaps : Prop :=
  ∀ (off : Half) (payload : List Byte) (s t : State), payload ≠ [] → exec (.data off payload) s = .next t →
    t.result = some .ok → t.baseAddress.toNat / 65536 = s.baseAddress.toNat / 65536 →
    exec (.data off payload) t = .next { t with result := some (.err .addressOverlap) }

/-- R126: after any number of DATA records that all end in `Ok`, the base is the first base plus the total payload
length, modulo 2^32, and a further byte's address is `((B0 + L) & 0xFFFF0000) + off + i`. Model's choice: the wrap
(D5, log entry 10); the formula is followed literally (log entry 23). -/
def Obligations.BaseAdvancesByTheTotalLength : Prop :=
  ∀ (recs : List (Half × List Byte)) (s t : State),
    execAllOk (recs.map fun r => .data r.1 r.2) s = some t →
    let total := s.baseAddress.toNat + (recs.map fun r => r.2.length).sum
    t.baseAddress.toNat = total % 4294967296 ∧
    ∀ (off : Half) (i : Nat),
      (dataAddress t.baseAddress off i).toNat = (total % 4294967296 / 65536 * 65536 + off.toNat + i) % 4294967296

/-! ## EOF -/

/-- R137, R58: EOF in full: any record but the canonical terminator is invalid, a second valid one is a duplicate, the
first sets the flag and changes nothing else. Model's choice: shape before duplicate (D7, log entry 12). -/
def Obligations.EofSetsTheFlagOnce : Prop :=
  (∀ (o : Half) (p : List Byte), recordOf (.eof o p) = [0x00, 0x00, 0x00, 0x01, 0xFF] ↔ o = 0 ∧ p = []) ∧
  (∀ (o : Half) (p : List Byte) (s : State), ¬(o = 0 ∧ p = []) →
    exec (.eof o p) s = .next { s with result := some (.err .invalidEndOfFileRecord) }) ∧
  (∀ s : State, s.eofFlag = true →
    exec (.eof 0 []) s = .next { s with result := some (.err .duplicateEndOfFileRecord) }) ∧
  (∀ s : State, s.eofFlag = false → exec (.eof 0 []) s = .next { s with eofFlag := true, result := some .ok })

/-! ## ESA and ELA -/

/-- R121, R142: ESA in full: a payload of 2 bytes sets the base to its value times 16, whatever the base and the offset
field were, and changes nothing else; any other length is an error. Model's choice: the offset is ignored (D20, log
entry 20). -/
def Obligations.EsaSetsTheSegmentBase : Prop :=
  (∀ (o : Half) (a b : Byte) (s : State), ∃ base : Word, base.toNat = (a.toNat * 256 + b.toNat) * 16 ∧
    exec (.esa o [a, b]) s = .next { s with baseAddress := base, result := some .ok }) ∧
  (∀ (o : Half) (p : List Byte) (s : State), p.length ≠ 2 →
    exec (.esa o p) s = .next { s with result := some (.err .badExtendedSegmentAddressRecord) })

/-- R122, R142: ELA in full: a payload of 2 bytes sets the base to its value times 65536, whatever the base and the
offset field were, and changes nothing else; any other length is an error. Model's choice: the offset is ignored
(D20, log entry 20). -/
def Obligations.ElaSetsTheLinearBase : Prop :=
  (∀ (o : Half) (a b : Byte) (s : State), ∃ base : Word, base.toNat = (a.toNat * 256 + b.toNat) * 65536 ∧
    exec (.ela o [a, b]) s = .next { s with baseAddress := base, result := some .ok }) ∧
  (∀ (o : Half) (p : List Byte) (s : State), p.length ≠ 2 →
    exec (.ela o p) s = .next { s with result := some (.err .badExtendedLinearAddressRecord) })

/-- R128: when both occur each overwrites the base, the later one wins, and no trace of the earlier is left. -/
def Obligations.MixedAddressingRecordsOverwrite : Prop :=
  ∀ (o₁ o₂ : Half) (a b c d : Byte) (s t u : State),
    (exec (.ela o₁ [a, b]) s = .next t → exec (.esa o₂ [c, d]) t = .next u →
      u.baseAddress = segmentBase (c ++ d) ∧ exec (.esa o₂ [c, d]) s = .next u) ∧
    (exec (.esa o₁ [a, b]) s = .next t → exec (.ela o₂ [c, d]) t = .next u →
      u.baseAddress = linearBase (c ++ d) ∧ exec (.ela o₂ [c, d]) s = .next u)

/-- R127: of a segment base only `seg[15:12]` reaches a data address: the address is that of the linear base
`seg >> 12`. The literal formula (log entry 23). -/
def Obligations.SegmentBaseKeepsOnlyItsTopNibble : Prop :=
  ∀ (seg off : Half) (i : Nat), dataAddress (segmentBase seg) off i = dataAddress (linearBase (seg >>> 12)) off i

/-- R164: the address machine's port is what the records do: a set command is the base ESA or ELA leaves, an advance
the base a DATA record that ends in `Ok` leaves. -/
def Obligations.AddressPortIsWhatTheRecordsDo : Prop :=
  (∀ (o : Half) (a b : Byte) (s t : State), exec (.esa o [a, b]) s = .next t →
    t.baseAddress = baseAfterCommand s.baseAddress (.setSeg (a ++ b))) ∧
  (∀ (o : Half) (a b : Byte) (s t : State), exec (.ela o [a, b]) s = .next t →
    t.baseAddress = baseAfterCommand s.baseAddress (.setLin (a ++ b))) ∧
  (∀ (o : Half) (p : List Byte) (s t : State), p.length ≤ 255 → exec (.data o p) s = .next t → t.result = some .ok →
    t.baseAddress = baseAfterCommand s.baseAddress (.advance (BitVec.ofNat 8 p.length)))

/-! ## SSA and SLA -/

/-- R139, R142: SSA in full. Model's choice: shape before duplicate (D7, log entry 12), the offset is ignored (D20, log
entry 20). -/
def Obligations.SsaRecordsTheFirstStart : Prop :=
  (∀ (o : Half) (p : List Byte) (s : State), p.length ≠ 4 →
    exec (.ssa o p) s = .next { s with result := some (.err .badStartSegmentAddressRecord) }) ∧
  (∀ (o : Half) (p : List Byte) (s : State), p.length = 4 → s.startAddress ≠ .absent →
    exec (.ssa o p) s = .next { s with result := some (.err .duplicateStartAddressRecord) }) ∧
  (∀ (o : Half) (a b c d : Byte) (s : State), s.startAddress = .absent → ∃ cs ip : Half,
    cs.toNat = a.toNat * 256 + b.toNat ∧ ip.toNat = c.toNat * 256 + d.toNat ∧
    exec (.ssa o [a, b, c, d]) s = .next { s with startAddress := .segmentCsIp cs ip, result := some .ok })

/-- R140, R142: SLA in full. Model's choice: shape before duplicate (D7, log entry 12), the offset is ignored (D20, log
entry 20). -/
def Obligations.SlaRecordsTheFirstStart : Prop :=
  (∀ (o : Half) (p : List Byte) (s : State), p.length ≠ 4 →
    exec (.sla o p) s = .next { s with result := some (.err .badStartLinearAddressRecord) }) ∧
  (∀ (o : Half) (p : List Byte) (s : State), p.length = 4 → s.startAddress ≠ .absent →
    exec (.sla o p) s = .next { s with result := some (.err .duplicateStartAddressRecord) }) ∧
  (∀ (o : Half) (a b c d : Byte) (s : State), s.startAddress = .absent → ∃ eip : Word,
    eip.toNat = ((a.toNat * 256 + b.toNat) * 256 + c.toNat) * 256 + d.toNat ∧
    exec (.sla o [a, b, c, d]) s = .next { s with startAddress := .linear eip, result := some .ok })

/-- R13: the start address is absent at reset, is written only by an SSA or SLA record and only when absent, and once
set no step changes it. -/
def Obligations.StartAddressIsSetAtMostOnce : Prop :=
  State.reset.startAddress = .absent ∧
  (∀ s t : State, step s = .next t → s.startAddress ≠ .absent → t.startAddress = s.startAddress) ∧
  (∀ (line : Line) (s t : State), processLine line s = .next t → t.startAddress ≠ s.startAddress →
    s.startAddress = .absent ∧ ∃ o p, decodeLine line = .ok (.ssa o p) ∨ decodeLine line = .ok (.sla o p))

/-- R15, R163: the end-of-file flag is false at reset, set only by an EOF record, never cleared by a step, and gates
nothing else: every other line does with the flag set exactly what it does with it clear, a further valid EOF is
refused. -/
def Obligations.EofFlagGatesOnlyEof : Prop :=
  State.reset.eofFlag = false ∧
  (∀ s t : State, step s = .next t → s.eofFlag = true → t.eofFlag = true) ∧
  (∀ (line : Line) (s t : State), processLine line s = .next t → s.eofFlag = false → t.eofFlag = true →
    decodeLine line = .ok (.eof 0 [])) ∧
  (∀ (line : Line) (s t : State), (∀ o p, decodeLine line ≠ .ok (.eof o p)) →
    processLine line { s with eofFlag := false } = .next t →
    t.eofFlag = false ∧ processLine line { s with eofFlag := true } = .next { t with eofFlag := true }) ∧
  (∀ (line : Line) (s : State), decodeLine line = .ok (.eof 0 []) → s.eofFlag = false →
    processLine line s = .next { s with eofFlag := true, result := some .ok }) ∧
  (∀ (line : Line) (s : State), decodeLine line = .ok (.eof 0 []) → s.eofFlag = true →
    processLine line s = .next { s with result := some (.err .duplicateEndOfFileRecord) })

/-! ## Errors -/

/-- R180, R182 to R185: each shape error is reported exactly for a record of its type with a wrong shape, and the state
is unchanged. Model's choice: shape before duplicate, in states with the flag or a start address set (D7, log entry
12). -/
def Obligations.ShapeErrorsComeFromTheirProcessor : Prop :=
  ∀ (line : Line) (s t : State), processLine line s = .next t →
    (t.result = some (.err .invalidEndOfFileRecord) ↔
      ∃ o p, decodeLine line = .ok (.eof o p) ∧ recordOf (.eof o p) ≠ [0x00, 0x00, 0x00, 0x01, 0xFF]) ∧
    (t.result = some (.err .badExtendedSegmentAddressRecord) ↔ ∃ o p, decodeLine line = .ok (.esa o p) ∧ p.length ≠ 2) ∧
    (t.result = some (.err .badExtendedLinearAddressRecord) ↔ ∃ o p, decodeLine line = .ok (.ela o p) ∧ p.length ≠ 2) ∧
    (t.result = some (.err .badStartSegmentAddressRecord) ↔ ∃ o p, decodeLine line = .ok (.ssa o p) ∧ p.length ≠ 4) ∧
    (t.result = some (.err .badStartLinearAddressRecord) ↔ ∃ o p, decodeLine line = .ok (.sla o p) ∧ p.length ≠ 4) ∧
    (∀ k ∈ [ErrKind.invalidEndOfFileRecord, .badExtendedSegmentAddressRecord, .badExtendedLinearAddressRecord,
        .badStartSegmentAddressRecord, .badStartLinearAddressRecord],
      t.result = some (.err k) → t = { s with result := some (.err k) })

/-- R181, R186: each duplicate error is reported exactly for a well-shaped record of its kind while the flag is set, or
while a start address of either variant is; the state is unchanged, the first start address kept. Model's choice: shape
before duplicate, so that a misshapen second record is no duplicate (D7, log entry 12). -/
def Obligations.DuplicateErrorsComeFromTheirProcessor : Prop :=
  ∀ (line : Line) (s t : State), processLine line s = .next t →
    (t.result = some (.err .duplicateEndOfFileRecord) ↔ decodeLine line = .ok (.eof 0 []) ∧ s.eofFlag = true) ∧
    (t.result = some (.err .duplicateStartAddressRecord) ↔ s.startAddress ≠ .absent ∧
      ∃ o p, (decodeLine line = .ok (.ssa o p) ∨ decodeLine line = .ok (.sla o p)) ∧ p.length = 4) ∧
    (∀ k ∈ [ErrKind.duplicateEndOfFileRecord, .duplicateStartAddressRecord],
      t.result = some (.err k) → t = { s with result := some (.err k) })

/-- R176, R177, R179: the errors before the dispatch come only from the check that names them, and leave the state
unchanged. -/
def Obligations.DecodeErrorsComeFromTheirCheck : Prop :=
  ∀ (line : Line) (s t : State), processLine line s = .next t →
    (∀ sub, t.result = some (.err (.malformedLine sub)) ↔ validateLine line = .error (.malformedLine sub)) ∧
    (t.result = some (.err .recordLengthMismatch) ↔ validateLine line = .ok () ∧
      ∃ rec n, bytesFromHexRun line = some rec ∧ rec[0]? = some n ∧ rec.length ≠ n.toNat + 5) ∧
    (t.result = some (.err .unknownRecordType) ↔ validateLine line = .ok () ∧
      ∃ rec n, bytesFromHexRun line = some rec ∧ rec[0]? = some n ∧ rec.length = n.toNat + 5 ∧ recType rec = none) ∧
    (t.result = some (.err .checksumMismatch) ↔ validateLine line = .ok () ∧
      ∃ rec n, bytesFromHexRun line = some rec ∧ rec[0]? = some n ∧ rec.length = n.toNat + 5 ∧ recType rec ≠ none ∧
        byteSum rec % 256 ≠ 0) ∧
    (∀ k, decodeLine line = .error k → t = { s with result := some (.err k) })

/-- R187, R190, R191: `AddressOverlap` is the only error after which the state may differ, and then only in the image:
any other error leaves all but the taken line and the result port as it was. Model's choice: no advance of the base
on a collision (D9, log entry 14). -/
def Obligations.OverlapIsTheOnlyPartialError : Prop :=
  ∀ (s t : State) (k : ErrKind), step s = .next t → t.result = some (.err k) →
    (k ≠ .addressOverlap → t = { s with lines := s.lines.drop 1, result := some (.err k) }) ∧
    (k = .addressOverlap → t.baseAddress = s.baseAddress ∧ t.startAddress = s.startAddress ∧ t.eofFlag = s.eofFlag ∧
      KeepsBytes s t ∧ ∃ line o p, s.lines.head? = some line ∧ decodeLine line = .ok (.data o p))

/-- R189, R175: for every line and state the step reports `Ok` exactly when no cause of any error is there, and else
exactly the error whose cause comes first in the fixed order. Causes are read from the characters, the spelled bytes
and the state, without the decoder. Model's choice: the type codes, the empty line, shape before duplicate, the offset
ignored (D3, D6, D7, D20; log entries 8, 11, 12, 20). -/
def Obligations.FirstCauseInOrderIsReported : Prop :=
  ∀ (line : Line) (s : State), ∃ t, processLine line s = .next t ∧
    (t.result = some .ok ↔ ∀ k, ¬ Cause line s k) ∧
    (∀ k, t.result = some (.err k) ↔ Cause line s k ∧ ∀ k', Cause line s k' → priority k ≤ priority k')

/-- R188 and R175's table: sixteen results, sixteen different codes. Model's choice: the numbers (D4, log entry 9). -/
def Obligations.ResultCodesAreDistinct : Prop :=
  (∀ r₁ r₂ : StepResult, resultCode r₁ = resultCode r₂ → r₁ = r₂) ∧
  (∀ c : BitVec 4, ∃ r, resultCode r = c) ∧ resultCode .ok = 0 ∧
  resultCode (.err (.malformedLine .missingMarker)) = 1 ∧ resultCode (.err .addressOverlap) = 15

/-- R13's packing: tag and value determine the start address, and tag 3 never occurs. Model's choice: the packing (D16,
log entry 22). -/
def Obligations.StartPackingIsFaithful : Prop :=
  (∀ a, startTag a ≠ 3) ∧ (∀ a b, startTag a = startTag b → startValue a = startValue b → a = b) ∧
  (∀ a, startTag a = 0 ↔ a = .absent)

/-! ## The step -/

/-- R160: a step with a line that decodes is `exec` of the instruction on the state less that line; with a line that
does not, it is the error on the result port and nothing else. Model's own: the queue of lines (log entry 1). -/
def Obligations.StepRunsTheDecodedInstruction : Prop :=
  ∀ (s : State) (line : Line) (rest : List Line), s.lines = line :: rest →
    (∀ i, decodeLine line = .ok i → step s = exec i { s with lines := rest }) ∧
    (∀ k, decodeLine line = .error k → step s = .next { s with lines := rest, result := some (.err k) })

/-- R162, R161: every step with a line, whatever the line and the state, ends in a next state with a result and takes
just that line; without a line there is no step. Model's own: the name of that refusal (log entry 4). -/
def Obligations.EveryStepWithALineCompletes : Prop :=
  ∀ s : State,
    (∀ line rest, s.lines = line :: rest → ∃ t, step s = .next t ∧ t.lines = rest ∧ t.result ≠ none) ∧
    (s.lines = [] → step s = .refused .noLine)

/-- R5: the state after a sequence of lines is `processLine` applied to them in supply order: as many steps as there
are lines, from any state, whatever lines follow. -/
def Obligations.RunIsTheFoldOfProcessLine : Prop :=
  ∀ (ls rest : List Line) (s : State),
    Host.Core.run core ls.length { s with lines := ls ++ rest } = processLines ls { s with lines := rest }

/-- R17, R10's table, R11: which record type may write which element: everything not named here is unchanged by each
record type, with any operands, whether it ends in `Ok` or in an error, and a line that does not decode writes none.
A DATA record's stores stay within its target addresses. -/
def Obligations.EachRecordTypeWritesOnlyItsElement : Prop :=
  (∀ (line : Line) (k : ErrKind) (s t : State), decodeLine line = .error k → processLine line s = .next t →
    t = { s with result := some (.err k) }) ∧
  ∀ (i : Instr) (s t : State), exec i s = .next t →
    t.lines = s.lines ∧
    (t.baseAddress ≠ s.baseAddress → i.recordType = .data ∨ i.recordType = .esa ∨ i.recordType = .ela) ∧
    (i.recordType ≠ .data → t.mem = s.mem) ∧
    (i.recordType = .data → ∀ a, (∀ k, k < i.payload.length → a ≠ dataAddress s.baseAddress i.offset k) →
      Memory.get t.mem a = Memory.get s.mem a) ∧
    (t.startAddress ≠ s.startAddress → i.recordType = .ssa ∨ i.recordType = .sla) ∧
    (t.eofFlag ≠ s.eofFlag → i.recordType = .eof)

/-- R165, R192: no step reads the result port, and a line that failed with any error but `AddressOverlap` leaves no
trace: the next line is treated as if the failed one had never been supplied. Model's choice: no error latch (D10, log
entry 15). -/
def Obligations.ResultPortAndErrorsLeaveNoTrace : Prop :=
  (∀ (s : State) (r : Option StepResult), step { s with result := r } = step s) ∧
  (∀ (l₁ l₂ : Line) (s t : State) (k : ErrKind), processLine l₁ s = .next t → t.result = some (.err k) →
    k ≠ .addressOverlap → processLine l₂ t = processLine l₂ s)
end

