-- ==== Sys2Proof/Laws/Codec.lean ====
section
/-! SUPPORT. The hex codec and the line validator: what a character, a pair and a run of pairs decode to, that the
encoder's digits decode to what they spell, and what a validated line is (R80 to R95). -/

namespace Sys2Proof

/-- The codec has a result exactly on the hex digits (R80, R81). -/
theorem charToNibble_isSome (c : Char8) : (charToNibble c).isSome = isHexDigit c := by
  unfold charToNibble isHexDigit
  split_ifs <;> simp_all

theorem charToNibble_of_hex {c : Char8} (h : isHexDigit c = true) : ∃ v, charToNibble c = some v :=
  Option.isSome_iff_exists.mp ((charToNibble_isSome c).trans h)

theorem hex_of_charToNibble {c : Char8} {v : Nibble} (h : charToNibble c = some v) : isHexDigit c = true := by
  rw [← charToNibble_isSome, h]; rfl

/-- The encoder's digit of a nibble decodes to the nibble. -/
@[simp] theorem charToNibble_nibbleToChar : ∀ v : Nibble, charToNibble (nibbleToChar v) = some v := by decide

theorem isHexDigit_nibbleToChar (v : Nibble) : isHexDigit (nibbleToChar v) = true :=
  hex_of_charToNibble (charToNibble_nibbleToChar v)

/-- The encoder's two digits of a byte decode to the byte (R82). -/
theorem byteFromHexPair_hexOfByte (b : Byte) :
    byteFromHexPair (nibbleToChar (b.extractLsb' 4 4)) (nibbleToChar (b.extractLsb' 0 4)) = some b := by
  simp only [byteFromHexPair, charToNibble_nibbleToChar]
  revert b; decide

theorem byteFromHexPair_eq_some {hi lo : Char8} {b : Byte} :
    byteFromHexPair hi lo = some b ↔ ∃ h l, charToNibble hi = some h ∧ charToNibble lo = some l ∧ b = h ++ l := by
  unfold byteFromHexPair
  cases charToNibble hi <;> cases charToNibble lo <;> simp [eq_comm]

/-- The digits of a record decode to the record. -/
theorem bytesFromPairs_hex (rec : Record) : bytesFromPairs (rec.flatMap hexOfByte) = some rec := by
  induction rec with
  | nil => rfl
  | cons b bs ih =>
    simp only [List.flatMap_cons, hexOfByte, List.cons_append, List.nil_append, bytesFromPairs] at ih ⊢
    rw [byteFromHexPair_hexOfByte, ih]

theorem length_flatMap_hex (rec : Record) : (rec.flatMap hexOfByte).length = 2 * rec.length := by
  induction rec with
  | nil => rfl
  | cons b bs ih => simp [List.flatMap_cons, hexOfByte] at ih ⊢; omega

theorem all_hex_flatMap (rec : Record) : (rec.flatMap hexOfByte).all isHexDigit = true := by
  induction rec with
  | nil => rfl
  | cons b bs ih => simp [List.flatMap_cons, hexOfByte, isHexDigit_nibbleToChar]

/-- A validated line is a marker and an even number, at least ten, of hex digits (R95). -/
theorem validateLine_ok_iff (line : Line) : validateLine line = .ok () ↔
    ∃ digits, line = markerChar :: digits ∧ digits.length % 2 = 0 ∧ 10 ≤ digits.length ∧ digits.all isHexDigit = true := by
  cases line with
  | nil => simp [validateLine]
  | cons c digits =>
    simp only [validateLine, List.length_cons, ne_eq]
    by_cases hc : c = markerChar
    · subst hc
      by_cases hp : (digits.length + 1) % 2 = 0
      · simp [hp]; intro h; omega
      · by_cases hl : digits.length + 1 < 11
        · simp [hp, hl]; intro h h'; omega
        · by_cases ha : digits.all isHexDigit = true
          · simp only [hp, hl, ha, if_false, if_true, not_true]
            exact ⟨fun _ => ⟨digits, rfl, by omega, by omega, ha⟩, fun _ => trivial⟩
          · simp only [hp, hl, ha, if_false, not_true]
            constructor
            · intro h; simp at h
            · rintro ⟨d, hd, -, -, h⟩; obtain rfl : digits = d := by simpa using hd
              exact absurd h ha
    · simp [hc]

/-- The line of a record of at least 5 bytes passes the validator. -/
theorem validateLine_lineOfRecord (rec : Record) (h : 5 ≤ rec.length) : validateLine (lineOfRecord rec) = .ok () :=
  (validateLine_ok_iff _).mpr ⟨_, rfl, by rw [length_flatMap_hex]; omega, by rw [length_flatMap_hex]; omega, all_hex_flatMap rec⟩

/-- On a well-formed line the hex run is the pairs after the marker (R83). -/
theorem bytesFromHexRun_of_valid {line : Line} (h : validateLine line = .ok ()) :
    bytesFromHexRun line = bytesFromPairs (line.drop 1) := by
  simp [bytesFromHexRun, h]

/-- A hex run that has a result was read from a well-formed line (R83, U1). -/
theorem bytesFromHexRun_eq_some {line : Line} {rec : Record} (h : bytesFromHexRun line = some rec) :
    validateLine line = .ok () ∧ bytesFromPairs (line.drop 1) = some rec := by
  unfold bytesFromHexRun at h
  split at h
  · exact ⟨‹_›, h⟩
  · simp at h

/-- The line of a record of at least 5 bytes decodes to the record (R83). -/
theorem bytesFromHexRun_lineOfRecord (rec : Record) (h : 5 ≤ rec.length) :
    bytesFromHexRun (lineOfRecord rec) = some rec := by
  rw [bytesFromHexRun_of_valid (validateLine_lineOfRecord rec h)]
  exact bytesFromPairs_hex rec

/-- Hex digits in even number always decode (R95): the codec cannot fail on a validated line. -/
theorem bytesFromPairs_total : ∀ digits : List Char8, digits.length % 2 = 0 → digits.all isHexDigit = true →
    ∃ rec, bytesFromPairs digits = some rec ∧ rec.length = digits.length / 2
  | [], _, _ => ⟨[], rfl, rfl⟩
  | [_], h, _ => by simp at h
  | hi :: lo :: rest, h, ha => by
    simp only [List.all_cons, Bool.and_eq_true] at ha
    obtain ⟨a, hA⟩ := charToNibble_of_hex ha.1
    obtain ⟨b, hB⟩ := charToNibble_of_hex ha.2.1
    obtain ⟨rec, hr, hl⟩ := bytesFromPairs_total rest (by simp at h; omega) ha.2.2
    refine ⟨(a ++ b) :: rec, ?_, by simp [hl]; omega⟩
    simp [bytesFromPairs, byteFromHexPair, hA, hB, hr]

/-- The digits of a run that decodes: two characters for each byte, in order (R83). -/
theorem bytesFromPairs_get : ∀ (d : List Char8) (rec : Record), bytesFromPairs d = some rec →
    rec.length * 2 = d.length ∧
    ∀ r, r < rec.length → ∃ hi lo b,
      d[2 * r]? = some hi ∧ d[2 * r + 1]? = some lo ∧ byteFromHexPair hi lo = some b ∧ rec[r]? = some b
  | [], rec, h => by simp [bytesFromPairs] at h; subst h; simp
  | [_], rec, h => by simp [bytesFromPairs] at h
  | hi :: lo :: rest, rec, h => by
    simp only [bytesFromPairs] at h
    split at h
    · rename_i b bs hb hbs
      have ih := bytesFromPairs_get rest bs hbs
      simp at h; subst h
      refine ⟨by simp; omega, ?_⟩
      intro r hr
      cases r with
      | zero => exact ⟨hi, lo, b, by simp, by simp, hb, by simp⟩
      | succ r =>
        obtain ⟨x, y, z, h1, h2, h3, h4⟩ := ih.2 r (by simpa using hr)
        refine ⟨x, y, z, ?_, ?_, h3, by simpa using h4⟩
        · rw [show 2 * (r + 1) = 2 * r + 1 + 1 by omega]; simpa using h1
        · rw [show 2 * (r + 1) + 1 = 2 * r + 1 + 1 + 1 by omega]; simpa using h2
    · simp at h

/-- A validator's error is a malformed line. -/
theorem validateLine_error {line : Line} {k : ErrKind} (h : validateLine line = .error k) : ∃ x, k = .malformedLine x := by
  unfold validateLine at h
  split at h
  · simp at h; exact ⟨_, h.symm⟩
  · split_ifs at h <;> simp at h <;> exact ⟨_, h.symm⟩

/-- A decoded digit encodes to the digit's upper case (R66). -/
theorem nibbleToChar_of_charToNibble : ∀ (c : Char8), ∀ v ∈ charToNibble c, nibbleToChar v = upperCase c := by decide

end Sys2Proof
end

