-- ==== Sys2Proof/Laws/Decode.lean ====
section
/-! SUPPORT. The record model: the fields and the checksum of a sealed record, the type table, and what a record
that passed structural validation is (R101 to R109). -/

namespace Sys2Proof

/-! ## The type table -/

/-- The selector reads back every code of the table. -/
@[simp] theorem recordTypeOf_code : ∀ t, recordTypeOf (recordTypeCode t) = some t := by intro t; cases t <;> rfl

/-- The selector answers a type only for its code. -/
theorem code_of_recordTypeOf {b : Byte} {t : RecordType} (h : recordTypeOf b = some t) : recordTypeCode t = b := by
  have := List.find?_some h
  simpa using this

@[simp] theorem instrOf_recordType (t : RecordType) (o : Half) (p : List Byte) : (instrOf t o p).recordType = t := by
  cases t <;> rfl

@[simp] theorem instrOf_offset (t : RecordType) (o : Half) (p : List Byte) : (instrOf t o p).offset = o := by
  cases t <;> rfl

@[simp] theorem instrOf_payload (t : RecordType) (o : Half) (p : List Byte) : (instrOf t o p).payload = p := by
  cases t <;> rfl

/-- An instruction is its type, offset and payload. -/
@[simp] theorem instrOf_fields (i : Instr) : instrOf i.recordType i.offset i.payload = i := by
  cases i <;> rfl

/-! ## The checksum -/

@[simp] theorem byteSum_nil : byteSum [] = 0 := rfl

@[simp] theorem byteSum_cons (b : Byte) (r : Record) : byteSum (b :: r) = b.toNat + byteSum r := by
  simp [byteSum]

@[simp] theorem byteSum_append (a b : Record) : byteSum (a ++ b) = byteSum a + byteSum b := by
  simp [byteSum]

theorem checksumByte_toNat (body : List Byte) : (checksumByte body).toNat = (256 - byteSum body % 256) % 256 := by
  simp [checksumByte]

/-- Sealing makes the sum a multiple of 256 (R54). -/
theorem checksumValid_sealRecord (body : List Byte) : checksumValid (sealRecord body) = true := by
  have h := checksumByte_toNat body
  have : byteSum body % 256 < 256 := Nat.mod_lt _ (by decide)
  simp only [checksumValid, sealRecord, byteSum_append, byteSum_cons, byteSum_nil, beq_iff_eq]
  omega

/-- A record that ends in any byte and is checksum-valid ends in its checksum byte (R108). -/
theorem eq_checksumByte {body : List Byte} {c : Byte} (h : checksumValid (body ++ [c]) = true) : c = checksumByte body := by
  apply BitVec.eq_of_toNat_eq
  have hc := c.isLt
  have : byteSum body % 256 < 256 := Nat.mod_lt _ (by decide)
  rw [checksumByte_toNat]
  simp only [checksumValid, byteSum_append, byteSum_cons, byteSum_nil, beq_iff_eq] at h
  omega

/-! ## The fields of a sealed record -/

/-- A record written out: four header bytes, the payload, the checksum byte (R53). -/
theorem recordOf_eq (i : Instr) : recordOf i =
    BitVec.ofNat 8 i.payload.length :: i.offset.extractLsb' 8 8 :: i.offset.extractLsb' 0 8 :: recordTypeCode i.recordType ::
      (i.payload ++ [checksumByte (headerBytes i.payload.length i.offset (recordTypeCode i.recordType) ++ i.payload)]) := by
  simp [recordOf, sealRecord, headerBytes]

theorem length_recordOf (i : Instr) : (recordOf i).length = i.payload.length + 5 := by
  simp [recordOf_eq]

theorem half_of_bytes (o : Half) : o.extractLsb' 8 8 ++ o.extractLsb' 0 8 = o := by
  ext k hk
  simp only [BitVec.getElem_append, BitVec.getElem_extractLsb']
  split <;> simp [BitVec.getLsbD_eq_getElem hk]
  rw [show 8 + (k - 8) = k by omega, BitVec.getLsbD_eq_getElem hk]

theorem extract_high (a b : Byte) : (a ++ b).extractLsb' 8 8 = a := by
  apply BitVec.eq_of_getElem_eq
  intro k hk
  rw [BitVec.getElem_extractLsb', BitVec.getLsbD_append, if_neg (by omega), show 8 + k - 8 = k by omega, BitVec.getLsbD_eq_getElem hk]

theorem extract_low (a b : Byte) : (a ++ b).extractLsb' 0 8 = b := by
  apply BitVec.eq_of_getElem_eq
  intro k hk
  rw [BitVec.getElem_extractLsb', BitVec.getLsbD_append, if_pos (by omega), Nat.zero_add, BitVec.getLsbD_eq_getElem hk]

/-- The payload of a record that passed the size check (R106). -/
theorem recPayload_of_size {rec : Record} {n : Byte} (h : recLength rec = some n) (hl : rec.length = n.toNat + 5) :
    recPayload rec = some ((rec.drop 4).take n.toNat) := by
  simp [recPayload, h, hl]

/-- What passing structural validation says of a record (R104). -/
theorem validateStructure_ok_iff (rec : Record) : validateStructure rec = .ok () ↔
    ∃ n t, recLength rec = some n ∧ rec.length = n.toNat + 5 ∧ recType rec = some t ∧ checksumValid rec = true := by
  cases hn : recLength rec with
  | none => simp [validateStructure, hn]
  | some n =>
    cases ht : recType rec <;> cases hc : checksumValid rec <;> by_cases hl : rec.length = n.toNat + 5 <;>
      simp [validateStructure, hn, ht, hc, hl]

/-- The errors structural validation gives (R104). -/
theorem validateStructure_error {rec : Record} {k : ErrKind} (h : validateStructure rec = .error k) :
    k = .recordLengthMismatch ∨ k = .unknownRecordType ∨ k = .checksumMismatch := by
  unfold validateStructure at h
  split at h
  · simp at h; exact .inl h.symm
  · split_ifs at h <;> simp at h <;> simp [← h]

/-- What a line that decodes went through (R160). -/
theorem decodeLine_ok {line : Line} {i : Instr} (h : decodeLine line = .ok i) :
    validateLine line = .ok () ∧ ∃ rec, bytesFromHexRun line = some rec ∧ decodeRecord rec = .ok i := by
  unfold decodeLine at h
  split at h
  · simp at h
  · rename_i u hv
    split at h
    · exact ⟨hv, _, ‹_›, h⟩
    · simp at h

/-- The one check of WellFormed, as a bound. -/
theorem wellFormed_iff (i : Instr) : i.wellFormed = true ↔ i.payload.length ≤ 255 := decide_eq_true_iff

/-! ## Big-endian values -/

/-- Two bytes as a number. -/
theorem toNat_append_byte (a b : Byte) : (a ++ b).toNat = a.toNat * 256 + b.toNat := by
  rw [BitVec.toNat_append, Nat.shiftLeft_eq]
  have := Nat.two_pow_add_eq_or_of_lt (i := 8) b.isLt a.toNat
  rw [Nat.mul_comm, ← this]

/-- Two half words as a number. -/
theorem toNat_append_half (a b : Half) : (a ++ b).toNat = a.toNat * 65536 + b.toNat := by
  rw [BitVec.toNat_append, Nat.shiftLeft_eq]
  have := Nat.two_pow_add_eq_or_of_lt (i := 16) b.isLt a.toNat
  rw [Nat.mul_comm, ← this]

/-- A 16-bit field whose two bytes are there. -/
theorem be16_eq_some {rec : Record} {k : Nat} {a b : Byte} (h : rec[k]? = some a) (h' : rec[k + 1]? = some b) :
    be16 rec k = some (a ++ b) := by
  simp [be16, be8, h, h']

end Sys2Proof
end

