-- ==== Sys2Proof/Laws/State.lean ====
section
/-! SUPPORT. One lemma for each field of State and each writer, true by rfl: no later proof unfolds a record
update. And what the two ends of a step do. -/

namespace Sys2Proof.Machine

@[simp] theorem State.setBaseAddress_baseAddress (s : State) (v : Word) : (s.setBaseAddress v).baseAddress = v := rfl
@[simp] theorem State.setBaseAddress_mem (s : State) (v : Word) : (s.setBaseAddress v).mem = s.mem := rfl
@[simp] theorem State.setBaseAddress_startAddress (s : State) (v : Word) : (s.setBaseAddress v).startAddress = s.startAddress := rfl
@[simp] theorem State.setBaseAddress_eofFlag (s : State) (v : Word) : (s.setBaseAddress v).eofFlag = s.eofFlag := rfl
@[simp] theorem State.setBaseAddress_lines (s : State) (v : Word) : (s.setBaseAddress v).lines = s.lines := rfl
@[simp] theorem State.setBaseAddress_result (s : State) (v : Word) : (s.setBaseAddress v).result = s.result := rfl

@[simp] theorem State.setMem_baseAddress (s : State) (m : Memory) : (s.setMem m).baseAddress = s.baseAddress := rfl
@[simp] theorem State.setMem_mem (s : State) (m : Memory) : (s.setMem m).mem = m := rfl
@[simp] theorem State.setMem_startAddress (s : State) (m : Memory) : (s.setMem m).startAddress = s.startAddress := rfl
@[simp] theorem State.setMem_eofFlag (s : State) (m : Memory) : (s.setMem m).eofFlag = s.eofFlag := rfl
@[simp] theorem State.setMem_lines (s : State) (m : Memory) : (s.setMem m).lines = s.lines := rfl
@[simp] theorem State.setMem_result (s : State) (m : Memory) : (s.setMem m).result = s.result := rfl

@[simp] theorem State.setStartAddress_baseAddress (s : State) (a : StartAddress) : (s.setStartAddress a).baseAddress = s.baseAddress := rfl
@[simp] theorem State.setStartAddress_mem (s : State) (a : StartAddress) : (s.setStartAddress a).mem = s.mem := rfl
@[simp] theorem State.setStartAddress_startAddress (s : State) (a : StartAddress) : (s.setStartAddress a).startAddress = a := rfl
@[simp] theorem State.setStartAddress_eofFlag (s : State) (a : StartAddress) : (s.setStartAddress a).eofFlag = s.eofFlag := rfl
@[simp] theorem State.setStartAddress_lines (s : State) (a : StartAddress) : (s.setStartAddress a).lines = s.lines := rfl
@[simp] theorem State.setStartAddress_result (s : State) (a : StartAddress) : (s.setStartAddress a).result = s.result := rfl

@[simp] theorem State.setEofFlag_baseAddress (s : State) (b : Bool) : (s.setEofFlag b).baseAddress = s.baseAddress := rfl
@[simp] theorem State.setEofFlag_mem (s : State) (b : Bool) : (s.setEofFlag b).mem = s.mem := rfl
@[simp] theorem State.setEofFlag_startAddress (s : State) (b : Bool) : (s.setEofFlag b).startAddress = s.startAddress := rfl
@[simp] theorem State.setEofFlag_eofFlag (s : State) (b : Bool) : (s.setEofFlag b).eofFlag = b := rfl
@[simp] theorem State.setEofFlag_lines (s : State) (b : Bool) : (s.setEofFlag b).lines = s.lines := rfl
@[simp] theorem State.setEofFlag_result (s : State) (b : Bool) : (s.setEofFlag b).result = s.result := rfl

@[simp] theorem State.setLines_baseAddress (s : State) (ls : List Line) : (s.setLines ls).baseAddress = s.baseAddress := rfl
@[simp] theorem State.setLines_mem (s : State) (ls : List Line) : (s.setLines ls).mem = s.mem := rfl
@[simp] theorem State.setLines_startAddress (s : State) (ls : List Line) : (s.setLines ls).startAddress = s.startAddress := rfl
@[simp] theorem State.setLines_eofFlag (s : State) (ls : List Line) : (s.setLines ls).eofFlag = s.eofFlag := rfl
@[simp] theorem State.setLines_lines (s : State) (ls : List Line) : (s.setLines ls).lines = ls := rfl
@[simp] theorem State.setLines_result (s : State) (ls : List Line) : (s.setLines ls).result = s.result := rfl

@[simp] theorem State.setResult_baseAddress (s : State) (r : StepResult) : (s.setResult r).baseAddress = s.baseAddress := rfl
@[simp] theorem State.setResult_mem (s : State) (r : StepResult) : (s.setResult r).mem = s.mem := rfl
@[simp] theorem State.setResult_startAddress (s : State) (r : StepResult) : (s.setResult r).startAddress = s.startAddress := rfl
@[simp] theorem State.setResult_eofFlag (s : State) (r : StepResult) : (s.setResult r).eofFlag = s.eofFlag := rfl
@[simp] theorem State.setResult_lines (s : State) (r : StepResult) : (s.setResult r).lines = s.lines := rfl
@[simp] theorem State.setResult_result (s : State) (r : StepResult) : (s.setResult r).result = some r := rfl

/-- Two states with equal fields are equal. -/
theorem State.ext_fields : ∀ s t : State, s.baseAddress = t.baseAddress → s.mem = t.mem → s.startAddress = t.startAddress →
    s.eofFlag = t.eofFlag → s.lines = t.lines → s.result = t.result → s = t
  | ⟨_, _, _, _, _, _⟩, ⟨_, _, _, _, _, _⟩, rfl, rfl, rfl, rfl, rfl, rfl => rfl

/-- The success end of a step changes the result port alone. -/
theorem returnOk_eq (s : State) : returnOk s = .next { s with result := some .ok } := rfl

/-- The error end of a step changes the result port alone (R190). -/
theorem raiseError_eq (k : ErrKind) (s : State) : raiseError k s = .next { s with result := some (.err k) } := rfl

/-- A next state of a success end is the state with the result `Ok`. -/
@[simp] theorem returnOk_eq_next {s t : State} : returnOk s = .next t ↔ s.setResult .ok = t := by simp [returnOk]

/-- A next state of an error end is the state with that error on the result port. -/
@[simp] theorem raiseError_eq_next {k : ErrKind} {s t : State} : raiseError k s = .next t ↔ s.setResult (.err k) = t := by
  simp [raiseError]

end Sys2Proof.Machine
end

