-- ==== Sys2Proof/Laws/Memory.lean ====
section
/-! SUPPORT. The memory store: what a read gives after an insertion, and that the canonical form is kept by every
operation that builds a memory image. -/

namespace Sys2Proof.Machine

@[simp] theorem Memory.get_nil (a : Addr) : Memory.get [] a = none := rfl

theorem Memory.get_cons (k : Nat) (v : Byte) (m : Memory) (a : Addr) :
    Memory.get ((k, v) :: m) a = if k = a.toNat then some v else Memory.get m a := rfl

/-- Reading the inserted address gives the inserted byte, when the address was unpopulated. -/
theorem Memory.get_insert_same (m : Memory) (a : Addr) (v : Byte) (h : Memory.get m a = none) :
    Memory.get (Memory.insert m a v) a = some v := by
  induction m with
  | nil => simp [Memory.insert, Memory.get_cons]
  | cons c rest ih =>
    obtain ⟨k, w⟩ := c
    rw [Memory.get_cons] at h
    split at h
    · simp at h
    · rename_i hk
      by_cases hlt : a.toNat < k
      · simp [Memory.insert, hlt, Memory.get_cons]
      · simp [Memory.insert, hlt, Memory.get_cons, hk, ih h]

/-- Reading another address gives what it gave before. -/
theorem Memory.get_insert_other (m : Memory) (a b : Addr) (v : Byte) (h : b ≠ a) :
    Memory.get (Memory.insert m a v) b = Memory.get m b := by
  have hn : a.toNat ≠ b.toNat := fun e => h (BitVec.eq_of_toNat_eq e.symm)
  induction m with
  | nil => simp [Memory.insert, Memory.get_cons, hn]
  | cons c rest ih =>
    obtain ⟨k, w⟩ := c
    by_cases hlt : a.toNat < k
    · simp [Memory.insert, hlt, Memory.get_cons, hn]
    · simp [Memory.insert, hlt, Memory.get_cons, ih]

theorem Memory.risingFrom_cons (lo k : Nat) (v : Byte) (m : Memory) :
    Memory.risingFrom lo ((k, v) :: m) = true ↔ lo ≤ k ∧ k < Config.addressSpace ∧ Memory.risingFrom (k + 1) m = true := by
  simp [Memory.risingFrom, and_assoc]

/-- No address below the bound is populated. -/
theorem Memory.get_below (m : Memory) : ∀ lo (a : Addr), Memory.risingFrom lo m = true → a.toNat < lo → Memory.get m a = none := by
  induction m with
  | nil => intros; rfl
  | cons c rest ih =>
    obtain ⟨k, w⟩ := c
    intro lo a h ha
    rw [Memory.risingFrom_cons] at h
    rw [Memory.get_cons, if_neg (by omega)]
    exact ih (k + 1) a h.2.2 (by omega)

/-- Inserting an unpopulated address keeps the cells rising. -/
theorem Memory.risingFrom_insert (m : Memory) (a : Addr) (v : Byte) :
    ∀ lo, Memory.risingFrom lo m = true → lo ≤ a.toNat → Memory.get m a = none →
      Memory.risingFrom lo (Memory.insert m a v) = true := by
  have ha : a.toNat < Config.addressSpace := a.isLt
  induction m with
  | nil => intro lo _ hlo _; simp [Memory.insert, Memory.risingFrom, hlo, ha]
  | cons c rest ih =>
    obtain ⟨k, w⟩ := c
    intro lo h hlo hg
    rw [Memory.risingFrom_cons] at h
    rw [Memory.get_cons] at hg
    split at hg
    · simp at hg
    · rename_i hk
      by_cases hlt : a.toNat < k
      · simp [Memory.insert, hlt, Memory.risingFrom_cons, hlo, ha, h.2.1, h.2.2]
      · simp only [Memory.insert, hlt, if_false, Memory.risingFrom_cons]
        exact ⟨h.1, h.2.1, ih (k + 1) h.2.2 (by omega) hg⟩

/-- `put` fails exactly on a populated address. -/
theorem Memory.put_eq_none {m : Memory} {a : Addr} {v : Byte} :
    Memory.put m a v = none ↔ ∃ w, Memory.get m a = some w := by
  cases h : Memory.get m a <;> simp [Memory.put, h]

/-- `put` that succeeds found the address unpopulated and inserted the cell. -/
theorem Memory.put_eq_some {m m' : Memory} {a : Addr} {v : Byte} :
    Memory.put m a v = some m' ↔ Memory.get m a = none ∧ Memory.insert m a v = m' := by
  cases h : Memory.get m a <;> simp [Memory.put, h]

/-- Every `put` keeps the canonical form. -/
theorem Memory.put_keeps_wf {m m' : Memory} {a : Addr} {v : Byte} (h : Memory.wf m = true)
    (hp : Memory.put m a v = some m') : Memory.wf m' = true := by
  obtain ⟨hg, rfl⟩ := Memory.put_eq_some.mp hp
  exact Memory.risingFrom_insert m a v 0 h (Nat.zero_le _) hg

end Sys2Proof.Machine
end

