-- ==== Sys2Proof/Laws/Store.lean ====
section
/-! SUPPORT. The DATA record's loop of puts: the canonical form is kept, populated bytes stay, and the two ways it
can end. -/

namespace Sys2Proof.Machine

/-- Distinct payload indices have distinct addresses (R124 item 4). -/
theorem dataAddress_ne (base : Word) (off : Half) {i j : Nat} (hi : i < 2 ^ 32) (hj : j < 2 ^ 32) (h : i ≠ j) :
    dataAddress base off i ≠ dataAddress base off j := by
  intro e
  have e' : BitVec.ofNat 32 i = BitVec.ofNat 32 j := (BitVec.add_right_inj _).mp e
  have := congrArg BitVec.toNat e'
  simp only [BitVec.toNat_ofNat, Nat.mod_eq_of_lt hi, Nat.mod_eq_of_lt hj] at this
  exact h this

theorem storeFrom_nil (base : Word) (off : Half) (i : Nat) (m : Memory) : storeFrom base off i [] m = (m, true) := rfl

/-- A populated address ends the loop, the image as it stands. -/
theorem storeFrom_cons_overlap (base : Word) (off : Half) (i : Nat) (b : Byte) (rest : List Byte) (m : Memory) (w : Byte)
    (h : Memory.get m (dataAddress base off i) = some w) : storeFrom base off i (b :: rest) m = (m, false) := by
  simp [storeFrom, Memory.put, h]

/-- An unpopulated address takes the byte and the loop goes on. -/
theorem storeFrom_cons_free (base : Word) (off : Half) (i : Nat) (b : Byte) (rest : List Byte) (m : Memory)
    (h : Memory.get m (dataAddress base off i) = none) :
    storeFrom base off i (b :: rest) m = storeFrom base off (i + 1) rest (Memory.insert m (dataAddress base off i) b) := by
  simp [storeFrom, Memory.put, h]

/-- Whatever its end, the loop keeps the canonical form. -/
theorem storeFrom_keeps_wf (base : Word) (off : Half) (payload : List Byte) :
    ∀ i m, Memory.wf m = true → Memory.wf (storeFrom base off i payload m).1 = true := by
  induction payload with
  | nil => intro i m h; exact h
  | cons b rest ih =>
    intro i m h
    cases hg : Memory.get m (dataAddress base off i) with
    | some w => rw [storeFrom_cons_overlap _ _ _ _ _ _ w hg]; exact h
    | none =>
      rw [storeFrom_cons_free _ _ _ _ _ _ hg]
      exact ih _ _ (Memory.risingFrom_insert m _ b 0 h (Nat.zero_le _) hg)

/-- Whatever its end, the loop leaves every populated byte as it was. -/
theorem storeFrom_keeps_bytes (base : Word) (off : Half) (payload : List Byte) :
    ∀ i m a v, Memory.get m a = some v → Memory.get (storeFrom base off i payload m).1 a = some v := by
  induction payload with
  | nil => intro i m a v h; exact h
  | cons b rest ih =>
    intro i m a v h
    cases hg : Memory.get m (dataAddress base off i) with
    | some w => rw [storeFrom_cons_overlap _ _ _ _ _ _ w hg]; exact h
    | none =>
      rw [storeFrom_cons_free _ _ _ _ _ _ hg]
      refine ih _ _ a v ?_
      rw [Memory.get_insert_other _ _ _ _ (by rintro rfl; simp [hg] at h), h]

/-- An address that is no target of the remaining bytes reads as before. -/
theorem storeFrom_get_other (base : Word) (off : Half) (payload : List Byte) :
    ∀ i m a, (∀ j, j < payload.length → a ≠ dataAddress base off (i + j)) →
      Memory.get (storeFrom base off i payload m).1 a = Memory.get m a := by
  induction payload with
  | nil => intro i m a _; rfl
  | cons b rest ih =>
    intro i m a h
    cases hg : Memory.get m (dataAddress base off i) with
    | some w => rw [storeFrom_cons_overlap _ _ _ _ _ _ w hg]
    | none =>
      rw [storeFrom_cons_free _ _ _ _ _ _ hg, ih (i + 1) _ a (fun j hj => by
        have := h (j + 1) (by simpa using hj)
        rwa [show i + 1 + j = i + (j + 1) by omega])]
      exact Memory.get_insert_other _ _ _ _ (by simpa using h 0 (by simp))

/-- No target populated: every byte is stored (R136). -/
theorem storeFrom_free (base : Word) (off : Half) (p : List Byte) : ∀ i m, i + p.length ≤ 4294967296 →
   (∀ j, j < p.length → Memory.get m (dataAddress base off (i + j)) = none) →
   (storeFrom base off i p m).2 = true ∧
     ∀ j, j < p.length → Memory.get (storeFrom base off i p m).1 (dataAddress base off (i + j)) = p[j]? := by
  induction p with
  | nil => intro i m _ _; simp [storeFrom]
  | cons b rest ih =>
    intro i m hl h
    have h0 := h 0 (by simp)
    rw [storeFrom_cons_free _ _ _ _ _ _ (by simpa using h0)]
    simp only [List.length_cons] at hl h
    have ih' := ih (i + 1) (Memory.insert m (dataAddress base off i) b) (by omega) (by
      intro j hj
      rw [Memory.get_insert_other _ _ _ _ (dataAddress_ne base off (by omega) (by omega) (by omega))]
      have := h (j + 1) (by omega)
      rwa [show i + 1 + j = i + (j + 1) by omega])
    refine ⟨ih'.1, ?_⟩
    intro j hj
    cases j with
    | zero =>
      rw [storeFrom_get_other]
      · simpa using Memory.get_insert_same m _ b (by simpa using h0)
      · intro j hj'
        exact dataAddress_ne base off (by omega) (by omega) (by omega)
    | succ j =>
      have := ih'.2 j (by simpa using hj)
      rw [show i + (j + 1) = i + 1 + j by omega, this]; simp

/-- Lowest populated target at index `k`: the bytes before it are stored, every other address reads as before
(R38). -/
theorem storeFrom_overlap (base : Word) (off : Half) (p : List Byte) : ∀ i m k w,
   i + p.length ≤ 4294967296 → k < p.length →
   (∀ j, j < k → Memory.get m (dataAddress base off (i + j)) = none) →
   Memory.get m (dataAddress base off (i + k)) = some w →
   (storeFrom base off i p m).2 = false ∧
     (∀ j, j < k → Memory.get (storeFrom base off i p m).1 (dataAddress base off (i + j)) = p[j]?) ∧
     ∀ a, (∀ j, j < k → a ≠ dataAddress base off (i + j)) → Memory.get (storeFrom base off i p m).1 a = Memory.get m a := by
  induction p with
  | nil => intro i m k w _ hk; simp at hk
  | cons b rest ih =>
    intro i m k w hl hk h hw
    simp only [List.length_cons] at hl hk
    cases k with
    | zero => rw [storeFrom_cons_overlap _ _ _ _ _ _ w (by simpa using hw)]; simp
    | succ k =>
      have h0 := h 0 (by omega)
      rw [storeFrom_cons_free _ _ _ _ _ _ (by simpa using h0)]
      have ih' := ih (i + 1) (Memory.insert m (dataAddress base off i) b) k w (by omega) (by omega) (by
        intro j hj
        rw [Memory.get_insert_other _ _ _ _ (dataAddress_ne base off (by omega) (by omega) (by omega))]
        have := h (j + 1) (by omega)
        rwa [show i + 1 + j = i + (j + 1) by omega]) (by
        rw [Memory.get_insert_other _ _ _ _ (dataAddress_ne base off (by omega) (by omega) (by omega))]
        rwa [show i + 1 + k = i + (k+1) by omega])
      refine ⟨ih'.1, ?_, ?_⟩
      · intro j hj
        cases j with
        | zero =>
          rw [ih'.2.2 _ (by
            intro j hj'
            exact dataAddress_ne base off (by omega) (by omega) (by omega))]
          simpa using Memory.get_insert_same m _ b (by simpa using h0)
        | succ j =>
          have := ih'.2.1 j (by omega)
          rw [show i + (j + 1) = i + 1 + j by omega, this]; simp
      · intro a ha
        rw [ih'.2.2 a (by intro j hj; have := ha (j + 1) (by omega); rwa [show i + 1 + j = i + (j + 1) by omega])]
        exact Memory.get_insert_other _ _ _ _ (by simpa using ha 0 (by omega))

/-! ## The address machine's values -/

/-- The bits of the mask that clears the low half of the base (R123). -/
theorem maskBit : ∀ k : Fin 32, (0xFFFF0000#32)[k.val] = decide (16 ≤ k.val) := by decide

/-- Clearing the low half, as a number (R123). -/
theorem toNat_and_highMask (b : Word) : (b &&& 0xFFFF0000#32).toNat = b.toNat / 65536 * 65536 := by
  have : b &&& 0xFFFF0000#32 = (b >>> 16) <<< 16 := by
    apply BitVec.eq_of_getElem_eq
    intro k hk
    rw [BitVec.getElem_and, maskBit ⟨k, hk⟩, BitVec.getElem_shiftLeft]
    by_cases h : k < 16
    · simp [h]
    · simp [h, show 16 ≤ k by omega, show 16 + (k - 16) = k by omega, BitVec.getLsbD_eq_getElem hk]
  rw [this]
  have := b.isLt
  simp [BitVec.toNat_shiftLeft, BitVec.toNat_ushiftRight, Nat.shiftRight_eq_div_pow, Nat.shiftLeft_eq]
  omega

/-- ESA's base as a number (R121). -/
theorem toNat_segmentBase (v : Half) : (segmentBase v).toNat = v.toNat * 16 := by
  have := v.isLt
  simp [segmentBase, Nat.shiftLeft_eq]; omega

/-- ELA's base as a number (R122). -/
theorem toNat_linearBase (v : Half) : (linearBase v).toNat = v.toNat * 65536 := by
  have := v.isLt
  simp [linearBase, Nat.shiftLeft_eq]; omega

end Sys2Proof.Machine
end

