-- ==== Sys2Proof/Laws/Exec.lean ====
section
/-! SUPPORT. The operands, and once for each record type everything its meaning can do; later proofs cite these and
unfold no meaning. -/

namespace Sys2Proof.Machine

/-! ## Operands -/

@[simp] theorem operand16_pair (a b : Byte) : operand16 [a, b] = some (a ++ b) := rfl

@[simp] theorem operandCsIp_quad (a b c d : Byte) : operandCsIp [a, b, c, d] = some (a ++ b, c ++ d) := rfl

@[simp] theorem operandEip_quad (a b c d : Byte) : operandEip [a, b, c, d] = some (a ++ b ++ (c ++ d)) := rfl

theorem operand16_none {p : List Byte} (h : p.length ≠ 2) : operand16 p = none := by simp [operand16, h]

theorem operandCsIp_none {p : List Byte} (h : p.length ≠ 4) : operandCsIp p = none := by simp [operandCsIp, h]

theorem operandEip_none {p : List Byte} (h : p.length ≠ 4) : operandEip p = none := by simp [operandEip, h]

/-- A list of two elements, written out. -/
theorem pair_of_length {p : List Byte} (h : p.length = 2) : ∃ a b, p = [a, b] := List.length_eq_two.mp h

/-- A list of four elements, written out. -/
theorem quad_of_length {p : List Byte} (h : p.length = 4) : ∃ a b c d, p = [a, b, c, d] := by
  match p, h with
  | [a, b, c, d], _ => exact ⟨a, b, c, d, rfl⟩

/-- EOF's shape test passes exactly on offset 0 and an empty payload: the checksum is then 0xFF (R137). -/
theorem isEofTerminator_iff (o : Half) (p : List Byte) : isEofTerminator o p = true ↔ o = 0 ∧ p = [] := by
  constructor
  · intro h
    have h : recordOf (.eof o p) = eofTerminator := by simpa [isEofTerminator] using h
    have hl := congrArg List.length h
    rw [length_recordOf] at hl
    obtain rfl : p = [] := List.eq_nil_of_length_eq_zero (by simpa [eofTerminator, Instr.payload] using hl)
    rw [recordOf_eq] at h
    simp only [eofTerminator, Instr.payload, Instr.offset, List.cons.injEq] at h
    refine ⟨?_, rfl⟩
    rw [← half_of_bytes o, h.2.1, h.2.2.1]
    rfl
  · rintro ⟨rfl, rfl⟩
    decide

theorem startIsSet_iff (s : State) : startIsSet s = true ↔ s.startAddress ≠ .absent := by simp [startIsSet]

/-! ## Each meaning -/

/-- Setting the start address: refused when one is set, else written. -/
theorem setStartOnce_cases {a : StartAddress} {s t : State} (h : setStartOnce a s = .next t) :
    (s.startAddress ≠ .absent ∧ t = s.setResult (.err .duplicateStartAddressRecord)) ∨
    (s.startAddress = .absent ∧ t = (s.setStartAddress a).setResult .ok) := by
  unfold setStartOnce at h
  split at h
  · exact .inl ⟨(startIsSet_iff s).mp ‹_›, (raiseError_eq_next.mp h).symm⟩
  · exact .inr ⟨by_contra fun e => ‹¬ _› ((startIsSet_iff s).mpr e), (returnOk_eq_next.mp h).symm⟩

/-- DATA: all bytes stored and the base advanced, or a collision with what the loop had stored. -/
theorem execData_cases {o : Half} {p : List Byte} {s t : State} (h : exec (.data o p) s = .next t) :
    ((storeFrom s.baseAddress o 0 p s.mem).2 = true ∧
      t = ((s.setMem (storeFrom s.baseAddress o 0 p s.mem).1).setBaseAddress (advanceBase s.baseAddress p.length)).setResult .ok) ∨
    ((storeFrom s.baseAddress o 0 p s.mem).2 = false ∧
      t = (s.setMem (storeFrom s.baseAddress o 0 p s.mem).1).setResult (.err .addressOverlap)) := by
  simp only [exec, execData] at h
  split at h <;> rename_i m hm
  · exact .inl ⟨by rw [hm], by rw [hm]; exact (returnOk_eq_next.mp h).symm⟩
  · exact .inr ⟨by rw [hm], by rw [hm]; exact (raiseError_eq_next.mp h).symm⟩

/-- EOF: a bad shape, a duplicate, or the flag set. -/
theorem execEof_cases {o : Half} {p : List Byte} {s t : State} (h : exec (.eof o p) s = .next t) :
    (isEofTerminator o p = false ∧ t = s.setResult (.err .invalidEndOfFileRecord)) ∨
    (isEofTerminator o p = true ∧ s.eofFlag = true ∧ t = s.setResult (.err .duplicateEndOfFileRecord)) ∨
    (isEofTerminator o p = true ∧ s.eofFlag = false ∧ t = (s.setEofFlag true).setResult .ok) := by
  cases hs : isEofTerminator o p with
  | false => exact .inl ⟨rfl, by simp [exec, execEof, hs] at h; exact h.symm⟩
  | true =>
    cases hf : s.eofFlag with
    | true => exact .inr (.inl ⟨rfl, rfl, by simp [exec, execEof, eofIsSet, hs, hf] at h; exact h.symm⟩)
    | false => exact .inr (.inr ⟨rfl, rfl, by simp [exec, execEof, eofIsSet, hs, hf] at h; exact h.symm⟩)

/-- ESA: a wrong length, or the base replaced. -/
theorem execEsa_cases {o : Half} {p : List Byte} {s t : State} (h : exec (.esa o p) s = .next t) :
    (p.length ≠ 2 ∧ t = s.setResult (.err .badExtendedSegmentAddressRecord)) ∨
    (∃ a b, p = [a, b] ∧ t = (s.setBaseAddress (segmentBase (a ++ b))).setResult .ok) := by
  by_cases hp : p.length = 2
  · obtain ⟨a, b, rfl⟩ := pair_of_length hp
    exact .inr ⟨a, b, rfl, by simp [exec, execEsa] at h; exact h.symm⟩
  · exact .inl ⟨hp, by simp [exec, execEsa, operand16_none hp] at h; exact h.symm⟩

/-- ELA: a wrong length, or the base replaced. -/
theorem execEla_cases {o : Half} {p : List Byte} {s t : State} (h : exec (.ela o p) s = .next t) :
    (p.length ≠ 2 ∧ t = s.setResult (.err .badExtendedLinearAddressRecord)) ∨
    (∃ a b, p = [a, b] ∧ t = (s.setBaseAddress (linearBase (a ++ b))).setResult .ok) := by
  by_cases hp : p.length = 2
  · obtain ⟨a, b, rfl⟩ := pair_of_length hp
    exact .inr ⟨a, b, rfl, by simp [exec, execEla] at h; exact h.symm⟩
  · exact .inl ⟨hp, by simp [exec, execEla, operand16_none hp] at h; exact h.symm⟩

/-- SSA: a wrong length, or what setting the start address does. -/
theorem execSsa_cases {o : Half} {p : List Byte} {s t : State} (h : exec (.ssa o p) s = .next t) :
    (p.length ≠ 4 ∧ t = s.setResult (.err .badStartSegmentAddressRecord)) ∨
    (∃ a b c d, p = [a, b, c, d] ∧ setStartOnce (.segmentCsIp (a ++ b) (c ++ d)) s = .next t) := by
  by_cases hp : p.length = 4
  · obtain ⟨a, b, c, d, rfl⟩ := quad_of_length hp
    exact .inr ⟨a, b, c, d, rfl, by simpa [exec, execSsa] using h⟩
  · exact .inl ⟨hp, by simp [exec, execSsa, operandCsIp_none hp] at h; exact h.symm⟩

/-- SLA: a wrong length, or what setting the start address does. -/
theorem execSla_cases {o : Half} {p : List Byte} {s t : State} (h : exec (.sla o p) s = .next t) :
    (p.length ≠ 4 ∧ t = s.setResult (.err .badStartLinearAddressRecord)) ∨
    (∃ a b c d, p = [a, b, c, d] ∧ setStartOnce (.linear (a ++ b ++ (c ++ d))) s = .next t) := by
  by_cases hp : p.length = 4
  · obtain ⟨a, b, c, d, rfl⟩ := quad_of_length hp
    exact .inr ⟨a, b, c, d, rfl, by simpa [exec, execSla] using h⟩
  · exact .inl ⟨hp, by simp [exec, execSla, operandEip_none hp] at h; exact h.symm⟩

/-- Every meaning gives a next state, on every operand and in every state. -/
theorem exec_next (i : Instr) (s : State) : ∃ t, exec i s = .next t := by
  cases i <;> simp only [exec, execData, execEof, execEsa, execEla, execSsa, execSla, setStartOnce, returnOk, raiseError] <;>
    repeat' (first | exact ⟨_, rfl⟩ | split)

/-- What a meaning can do, for all six at once: one state element written and `Ok`, or an error with nothing
written but the bytes a DATA record stored before a collision. -/
theorem exec_cases {i : Instr} {s t : State} (h : exec i s = .next t) :
    (∃ k, k ≠ .addressOverlap ∧ t = s.setResult (.err k)) ∨
    (∃ o p, i = .data o p ∧ (storeFrom s.baseAddress o 0 p s.mem).2 = false ∧
      t = (s.setMem (storeFrom s.baseAddress o 0 p s.mem).1).setResult (.err .addressOverlap)) ∨
    (∃ o p, i = .data o p ∧ (storeFrom s.baseAddress o 0 p s.mem).2 = true ∧
      t = ((s.setMem (storeFrom s.baseAddress o 0 p s.mem).1).setBaseAddress (advanceBase s.baseAddress p.length)).setResult .ok) ∨
    (∃ o p, i = .eof o p ∧ s.eofFlag = false ∧ t = (s.setEofFlag true).setResult .ok) ∨
    (∃ o p w, (i = .esa o p ∨ i = .ela o p) ∧ t = (s.setBaseAddress w).setResult .ok) ∨
    (∃ o p a, (i = .ssa o p ∨ i = .sla o p) ∧ s.startAddress = .absent ∧ t = (s.setStartAddress a).setResult .ok) := by
  cases i with
  | data o p =>
    rcases execData_cases h with ⟨h1, h2⟩ | ⟨h1, h2⟩
    · exact .inr (.inr (.inl ⟨o, p, rfl, h1, h2⟩))
    · exact .inr (.inl ⟨o, p, rfl, h1, h2⟩)
  | eof o p =>
    rcases execEof_cases h with ⟨_, h⟩ | ⟨_, _, h⟩ | ⟨_, hf, h⟩
    · exact .inl ⟨_, by decide, h⟩
    · exact .inl ⟨_, by decide, h⟩
    · exact .inr (.inr (.inr (.inl ⟨o, p, rfl, hf, h⟩)))
  | esa o p =>
    rcases execEsa_cases h with ⟨_, h⟩ | ⟨_, _, _, h⟩
    · exact .inl ⟨_, by decide, h⟩
    · exact .inr (.inr (.inr (.inr (.inl ⟨o, p, _, .inl rfl, h⟩))))
  | ela o p =>
    rcases execEla_cases h with ⟨_, h⟩ | ⟨_, _, _, h⟩
    · exact .inl ⟨_, by decide, h⟩
    · exact .inr (.inr (.inr (.inr (.inl ⟨o, p, _, .inr rfl, h⟩))))
  | ssa o p =>
    rcases execSsa_cases h with ⟨_, h⟩ | ⟨_, _, _, _, _, h⟩
    · exact .inl ⟨_, by decide, h⟩
    · rcases setStartOnce_cases h with ⟨_, h⟩ | ⟨ha, h⟩
      · exact .inl ⟨_, by decide, h⟩
      · exact .inr (.inr (.inr (.inr (.inr ⟨o, p, _, .inl rfl, ha, h⟩))))
  | sla o p =>
    rcases execSla_cases h with ⟨_, h⟩ | ⟨_, _, _, _, _, h⟩
    · exact .inl ⟨_, by decide, h⟩
    · rcases setStartOnce_cases h with ⟨_, h⟩ | ⟨ha, h⟩
      · exact .inl ⟨_, by decide, h⟩
      · exact .inr (.inr (.inr (.inr (.inr ⟨o, p, _, .inr rfl, ha, h⟩))))

/-! ## processLine and step -/

/-- A line that does not decode leaves all but the result port as it was (R160). -/
theorem processLine_error {line : Line} {k : ErrKind} (h : decodeLine line = .error k) (s : State) :
    processLine line s = raiseError k s := by simp [processLine, h]

/-- A line that decodes runs its instruction (R160). -/
theorem processLine_ok {line : Line} {i : Instr} (h : decodeLine line = .ok i) (s : State) :
    processLine line s = exec i s := by simp [processLine, h]

/-- What `processLine` can do: a decoding error, or the meaning of the decoded instruction. -/
theorem processLine_cases {line : Line} {s t : State} (h : processLine line s = .next t) :
    (∃ k, decodeLine line = .error k ∧ t = s.setResult (.err k)) ∨ (∃ i, decodeLine line = .ok i ∧ exec i s = .next t) := by
  cases hd : decodeLine line with
  | error k => rw [processLine_error hd] at h; exact .inl ⟨k, rfl, (raiseError_eq_next.mp h).symm⟩
  | ok i => rw [processLine_ok hd] at h; exact .inr ⟨i, rfl, h⟩

/-- A step with a line is `processLine` of it on the state less that line. -/
theorem step_cons {s : State} {line : Line} {rest : List Line} (h : s.lines = line :: rest) :
    step s = processLine line (s.setLines rest) := by simp [step, h]

/-- A step that gives a next state had a line. -/
theorem step_cases {s t : State} (h : step s = .next t) :
    ∃ line rest, s.lines = line :: rest ∧ processLine line (s.setLines rest) = .next t := by
  cases hl : s.lines with
  | nil => simp [step, hl] at h
  | cons line rest => exact ⟨line, rest, rfl, by rw [← step_cons hl]; exact h⟩

end Sys2Proof.Machine
end

