-- ==== Sys2Proof/Laws/PerInstr.lean ====
section
/-! SUPPORT. A law of every instruction as syntax: its record carries its own type code and declared length, and
sums to a multiple of 256 (R54, R57 to R62). -/

namespace Sys2Proof.Laws.RecordShape

/-- The record of a well-formed instruction has the size its length byte declares, the type code of its row, and
a valid checksum. -/
def Statement (i : Instr) : Prop :=
  i.wellFormed = true → recLength (recordOf i) = some (BitVec.ofNat 8 i.payload.length) ∧
    (recordOf i).length = i.payload.length + 5 ∧ recType (recordOf i) = some i.recordType ∧ checksumValid (recordOf i) = true

/-- The shape of any instruction's record. -/
theorem shape (i : Instr) : Statement i := fun _ =>
  ⟨by simp [recLength, be8, recordOf_eq], length_recordOf i, by simp [recType, be8, recordOf_eq],
    checksumValid_sealRecord _⟩

theorem data (offset : Half) (payload : List Byte) : Statement (.data offset payload) := shape _
theorem eof (offset : Half) (payload : List Byte) : Statement (.eof offset payload) := shape _
theorem esa (offset : Half) (payload : List Byte) : Statement (.esa offset payload) := shape _
theorem ssa (offset : Half) (payload : List Byte) : Statement (.ssa offset payload) := shape _
theorem ela (offset : Half) (payload : List Byte) : Statement (.ela offset payload) := shape _
theorem sla (offset : Half) (payload : List Byte) : Statement (.sla offset payload) := shape _

end Sys2Proof.Laws.RecordShape
end

