-- ==== Sys2Proof/Tests/Slice0.lean ====
section
/-! SUPPORT. Tests: expected values are the spec's worked examples and vectors (spec/95_test_vectors.md, named V, S, P
and section numbers there) or hand calculation from its rules; and for each statement with hypotheses a witness
that meets them, at boundary values. -/

namespace Sys2Proof.Tests

open Sys2Proof Sys2Proof.Machine

/-- The characters of a text as a line. -/
def text (t : String) : Line := t.toList.map fun c => BitVec.ofNat 8 c.toNat

/-- The next state of an outcome. -/
def after : Outcome → Option State
  | .next t => some t
  | _ => none

/-- The result the step of one line gives in a state. -/
def resultOf (s : State) (t : String) : Option StepResult :=
  (after (step (s.setLines [text t]))).bind fun u => u.result

/-- A small state: base, image, start address and flag; no line, no result. -/
def st (base : Word) (mem : Memory) (start : StartAddress) (eof : Bool) : State :=
  ⟨base, mem, start, eof, [], none⟩

/-- The state after a list of lines, one step each. -/
def session (ls : List String) : Option State := after (processLines (ls.map text) State.reset)

/-! ## WellFormed -/

theorem test_payload_of_256_bytes_is_ill_formed : Instr.wellFormed (.data 0 (List.replicate 256 0)) = false :=
  decide_eq_false (by rw [Instr.payload, List.length_replicate]; decide)
theorem test_payload_of_255_bytes_is_well_formed : Instr.wellFormed (.sla 0xFFFF (List.replicate 255 0)) = true :=
  (wellFormed_iff _).mpr (by rw [Instr.payload, List.length_replicate])

/-! ## Codec (section 2.1) -/

theorem test_class_boundaries : ([0x2F, 0x30, 0x39, 0x3A, 0x40, 0x41, 0x46, 0x47, 0x60, 0x61, 0x66, 0x67, 0x80, 0xFF] : List Char8).map
    hexCodecPort = [(false, none), (true, some 0), (true, some 9), (false, none), (false, none), (true, some 10), (true, some 15),
      (false, none), (false, none), (true, some 10), (true, some 15), (false, none), (false, none), (false, none)] := by decide
theorem test_pair_high_nibble_first : byteFromHexPair 0x65 0x33 = some 0xE3 ∧ byteFromHexPair 0x37 0x46 = some 0x7F ∧
    byteFromHexPair 0x47 0x30 = none := by decide
theorem test_run_skips_the_marker : bytesFromHexRun (text ":AbCdEf0123456789aBcDeF") =
    some [0xAB, 0xCD, 0xEF, 0x01, 0x23, 0x45, 0x67, 0x89, 0xAB, 0xCD, 0xEF] := by decide

/-! ## Validator (section 2.2) -/

theorem test_missing_marker : ["", "0", "00000001FF", " :00000001FF", ";00000001FF"].map (fun t => validateLine (text t)) =
    List.replicate 5 (.error (.malformedLine .missingMarker)) := by decide
theorem test_parity : [":0", ":0G0", ":00000001F", ":00000001FF\r"].map (fun t => validateLine (text t)) =
    List.replicate 4 (.error (.malformedLine .badLengthParity)) := by decide
theorem test_too_short : [":", ":0G", ":000001FF"].map (fun t => validateLine (text t)) =
    List.replicate 3 (.error (.malformedLine .tooShort)) := by decide
theorem test_invalid_character : [":00000001FF\r\n", ":00000001F ", ":0000000G0F", ":00:00001FF", ":0x00000001"].map
    (fun t => validateLine (text t)) = List.replicate 5 (.error (.malformedLine .invalidCharacter)) := by decide
theorem test_validated : validateLine (text ":00000001ff") = .ok () := by decide

/-! ## Decoding: one line for each constructor, spelled from R57 to R62 and R65 -/

theorem test_decode_data : decodeLine (text ":1004E300CFF0FBE2FDF220FF20F2E120E2FBE6F396") =
    .ok (.data 0x04E3 [0xCF, 0xF0, 0xFB, 0xE2, 0xFD, 0xF2, 0x20, 0xFF, 0x20, 0xF2, 0xE1, 0x20, 0xE2, 0xFB, 0xE6, 0xF3]) := by decide
theorem test_decode_eof : decodeLine (text ":00000001ff") = .ok (.eof 0 []) := by decide
theorem test_decode_esa : decodeLine (text ":020000021200EA") = .ok (.esa 0 [0x12, 0x00]) := by decide
theorem test_decode_ssa : decodeLine (text ":0400000300003800C1") = .ok (.ssa 0 [0x00, 0x00, 0x38, 0x00]) := by decide
theorem test_decode_ela : decodeLine (text ":02ABCD0412343C") = .ok (.ela 0xABCD [0x12, 0x34]) := by decide
theorem test_decode_sla : decodeLine (text ":04000005000000CD2A") = .ok (.sla 0 [0x00, 0x00, 0x00, 0xCD]) := by decide
theorem test_encode_data : encode (.data 0x0030 [0x02, 0x33, 0x7A]) = text ":0300300002337A1E" := by decide
theorem test_length_mismatch : [":02000001FF", ":0000000100FF", ":02000006FF"].map (fun t => decodeLine (text t)) =
    List.replicate 3 (.error .recordLengthMismatch) := by decide
theorem test_unknown_type : [":00000006FA", ":00000006FF", ":000000FF01"].map (fun t => decodeLine (text t)) =
    List.replicate 3 (.error .unknownRecordType) := by decide
theorem test_checksum_mismatch : [":00000001FE", ":0000000001", ":0100000200FF"].map (fun t => decodeLine (text t)) =
    List.replicate 3 (.error .checksumMismatch) := by decide

/-! ## One step of each record type -/

/-- S2, first call. -/
theorem test_data_stores_and_advances : (session [":1004E300CFF0FBE2FDF220FF20F2E120E2FBE6F396"]).map
    (fun s => (s.baseAddress, hostGet s 0x4E3, hostGet s 0x4F2, hostGet s 0x4F3)) =
    some (0x10, some 0xCF, some 0xF3, none) := by decide
/-- P3, step 2: bytes 0 and 1 stay, byte 2 collides, the base is not advanced. -/
theorem test_data_overlap_keeps_the_prefix : (after (exec (.data 0x000E [0xA1, 0xA2, 0xA3, 0xA4])
    (st 4 [(0x10, 0x11), (0x11, 0x22), (0x12, 0x33), (0x13, 0x44)] .absent false))).map (fun s => (s.baseAddress, s.mem, s.result)) =
    some (4, [(0x0E, 0xA1), (0x0F, 0xA2), (0x10, 0x11), (0x11, 0x22), (0x12, 0x33), (0x13, 0x44)],
      some (.err .addressOverlap)) := by decide
theorem test_eof_sets_the_flag : (session [":00000001FF"]).map (fun s => (s.eofFlag, s.mem, s.result)) =
    some (true, [], some .ok) := by decide
/-- V-E1, steps 2 to 4. -/
theorem test_eof_shape_before_duplicate : [":00123401B9", ":0100000100FE", ":00000001ff"].map (resultOf (st 0 [] .absent true)) =
    [some (.err .invalidEndOfFileRecord), some (.err .invalidEndOfFileRecord), some (.err .duplicateEndOfFileRecord)] := by decide
/-- Section 2.4. -/
theorem test_esa_values : [":020000021200EA", ":020000020FFFEE", ":02000002FFFFFE"].map (fun t => (session [t]).map fun s => s.baseAddress) =
    [some 0x00012000, some 0x0000FFF0, some 0x000FFFF0] := by decide
theorem test_esa_shape : [":00000002FE", ":0100000200FD", ":03000002120000E9"].map (resultOf State.reset) =
    List.replicate 3 (some (.err .badExtendedSegmentAddressRecord)) := by decide
theorem test_ela_values : [":020000041234B4", ":02ABCD0412343C", ":02000004FFFFFC"].map (fun t => (session [t]).map fun s => s.baseAddress) =
    [some 0x12340000, some 0x12340000, some 0xFFFF0000] := by decide
theorem test_ela_shape : [":00000004FC", ":0300000400000AEF"].map (resultOf State.reset) =
    List.replicate 2 (some (.err .badExtendedLinearAddressRecord)) := by decide
theorem test_ssa_sets : (session [":0400000312345678E5"]).map (fun s => s.startAddress) = some (.segmentCsIp 0x1234 0x5678) := by decide
/-- V-S1 to V-S5. -/
theorem test_ssa_errors : [":0400000300003800C1", ":0200000300FFFC", ":050000030000000000F8"].map
    (resultOf (st 0 [] (.linear 0x08000000) false)) = [some (.err .duplicateStartAddressRecord),
      some (.err .badStartSegmentAddressRecord), some (.err .badStartSegmentAddressRecord)] := by decide
theorem test_sla_sets : (session [":04000005000000CD2A"]).map (fun s => s.startAddress) = some (.linear 0xCD) := by decide
/-- V-S6: zero is a value, not absence. -/
theorem test_sla_after_zero_start : [":0400000500000000F7", ":00000005FB"].map (resultOf (st 0 [] (.segmentCsIp 0 0) false)) =
    [some (.err .duplicateStartAddressRecord), some (.err .badStartLinearAddressRecord)] := by decide

/-! ## Sessions -/

/-- P5: wrap at the top of the address space. -/
theorem test_wrap_at_the_top : (session [":02000004FFFFFC", ":03FFFE00010203FA"]).map (fun s => (s.baseAddress, s.mem)) =
    some (0xFFFF0003, [(0, 0x03), (0xFFFFFFFE, 0x01), (0xFFFFFFFF, 0x02)]) := by decide
/-- P4: the advance carries into bit 16. -/
theorem test_advance_carries : (session [":020000020FFFEE", ":10010000000102030405060708090A0B0C0D0E0F77", ":02011000EEFF00"]).map
    (fun s => (s.baseAddress, hostGet s 0x100, hostGet s 0x10F, hostGet s 0x10110, hostGet s 0x110)) =
    some (0x00010002, some 0, some 0x0F, some 0xEE, none) := by decide
/-- P6, steps 1 to 7: mixed addressing records, records after EOF. -/
theorem test_mixed_and_after_eof : (session [":020000041234B4", ":010010007E71", ":020000022000DC", ":0100000001FE", ":00000001FF",
    ":0100000002FD", ":0400000508000000EF"]).map (fun s => (s.baseAddress, s.mem, s.startAddress, s.eofFlag)) =
    some (0x00020001, [(0x20000, 0x01), (0x12340010, 0x7E)], .linear 0x08000000, true) := by decide
theorem test_new_session : newSession (st 5 [(1, 2)] (.linear 3) true) = State.reset := by decide

/-! ## The host's table words -/

theorem test_table_rows_decode : [0, 1, 2, 3, 4, 5, 6].map (decodeTableWord 32) =
    [some (.data 0 []), some (.eof 0 []), some (.esa 0 []), some (.ssa 0 []), some (.ela 0 []), some (.sla 0 []), none] := by decide
theorem test_table_word_fields : decodeTableWord 32 0x02ABCD04 = some (.ela 0xABCD [0, 0]) := by decide
theorem test_fetch_word_runs_first : (after (step (State.reset.withFetchWord 32 0x02000004))).map (fun s => (s.result, s.lines)) =
    some (some .ok, []) := by decide

/-! ## Witnesses: the hypotheses of each statement can be met, at a boundary for each clause -/

theorem witness_HexPairSpellsHighNibbleFirst : charToNibble 0x46 = some 15 ∧ charToNibble 0x30 = some 0 := by decide
theorem witness_ValidatedLineDecodesPairByPair : validateLine (text ":00000001FF") = .ok () ∧ (text ":00000001FF").length = 11 := by decide
theorem witness_HexRunIsDefinedExactlyOnWellFormedLines :
    bytesFromHexRun (text ":00000001FF") = some [0x00, 0x00, 0x00, 0x01, 0xFF] ∧
    [text "", text ":", text "X00", text ":00", text "000000001FF", text ":00000001FFF", text ":0000000GFF"].map
      bytesFromHexRun = List.replicate 7 none := by decide
theorem witness_LetterCaseCarriesNoMeaning : (text ":00000001ff").map upperCase = (text ":00000001FF").map upperCase ∧
    text ":00000001ff" ≠ text ":00000001FF" := by decide
theorem witness_FieldsAreBigEndian : ([0x04, 0xAB, 0xCD, 0x03, 0x12, 0x34, 0x56, 0x78, 0x2D] : Record)[1]? = some 0xAB ∧
    be32 [0x04, 0xAB, 0xCD, 0x03, 0x12, 0x34, 0x56, 0x78, 0x2D] 4 = some 0x12345678 ∧
    be16 [0x04, 0xAB] 0 = some 0x04AB := by decide
theorem witness_ExtractionPastTheEndHasNoResult : be8 [0x04, 0xAB] 2 = none ∧ be16 [0x04, 0xAB] 1 = none ∧
    be32 [1, 2, 3] 0 = none := by decide
theorem witness_PayloadNeedsTheSizeCheck :
    recPayload [0x02, 0x00, 0x00, 0x04, 0x12, 0x34, 0xB4] = some [0x12, 0x34] ∧
    recPayload [0x00, 0x00, 0x00, 0x01, 0xFF] = some [] ∧
    recPayload [0x02, 0x00, 0x00, 0x04, 0x12, 0x34] = none ∧
    recPayload [0x01, 0x00, 0x00, 0x04, 0x12, 0x34, 0xB4] = none := by decide
theorem witness_StructureChecksRunInOrder :
    validateStructure [0x02, 0x00, 0x00, 0x06, 0xFF] = .error .recordLengthMismatch ∧
    validateStructure [0x00, 0x00, 0x00, 0x06, 0xFF] = .error .unknownRecordType ∧
    validateStructure [0x00, 0x00, 0x00, 0x05, 0xFF] = .error .checksumMismatch ∧
    validateStructure [0x00, 0x00, 0x00, 0x05, 0xFB] = .ok () := by decide
theorem witness_ChecksumIsAnEightBitAccumulator : ([0x00, 0x00, 0x00, 0x01, 0xFF] : Record).Perm [0xFF, 0x00, 0x00, 0x00, 0x01] ∧
    ([0x00, 0x00, 0x00, 0x01, 0xFF] : Record)[4]? = some 0xFF ∧ checksumValid [0x00, 0x00, 0x00, 0x01, 0xFF] = true ∧
    checksumValid ([0x00, 0x00, 0x00, 0x01, 0xFF].set 4 0xFE) = false := by decide
theorem witness_DecodedFieldsStandAtTheirBytes : decodeRecord [0x02, 0xAB, 0xCD, 0x04, 0x12, 0x34, 0x3C] = .ok (.ela 0xABCD [0x12, 0x34]) := by
  decide
theorem witness_LineLengthMatchesDeclaredLength : validateLine (text ":0300300002337A1E") = .ok () ∧
    (bytesFromHexRun (text ":0300300002337A1E")).bind (fun r => r[0]?) = some 3 ∧
    decodeLine (text ":0300300002337A1E") = .ok (.data 0x30 [0x02, 0x33, 0x7A]) := by decide
theorem witness_DecodeOfEncodeIsTheInstruction : Instr.wellFormed (.data 0xFFFF (List.replicate 255 0xFF)) = true ∧
    Instr.wellFormed (.eof 0 []) = true := ⟨(wellFormed_iff _).mpr (by rw [Instr.payload, List.length_replicate]), rfl⟩
theorem witness_EncodeOfDecodeIsTheLineInUpperCase : decodeLine (text ":0300300002337a1e") = .ok (.data 0x30 [0x02, 0x33, 0x7A]) ∧
    encode (.data 0x30 [0x02, 0x33, 0x7A]) = (text ":0300300002337a1e").map upperCase := by decide
theorem witness_PutInsertsOnlyIfAbsent : Memory.get [(5, 1)] 4 = none ∧ Memory.put [(5, 1)] 4 9 = some [(4, 9), (5, 1)] ∧
    Memory.get [(5, 1)] 5 = some 1 ∧ Memory.put [(5, 1)] 5 1 = none := by decide
theorem witness_ImagesThatReadAlikeAreEqual : Memory.wf [(0, 1), (0xFFFFFFFF, 2)] = true ∧ Memory.wf [(5, 1), (4, 1)] = false ∧
    Memory.wf [(4, 1), (4, 1)] = false ∧ Memory.wf [(4294967296, 1)] = false := by decide
theorem witness_EnumerationIsThePopulatedSet : (st 0 [(4, 9), (5, 1)] .absent false).Inv ∧
    hostEnumerate (st 0 [(4, 9), (5, 1)] .absent false) = ({(5, 1), (4, 9)} : Finset (Addr × Byte)) := by
  constructor <;> decide
theorem witness_StepKeepsImageCanonical : (st 0 [(4, 9)] .absent false).Inv ∧
    (after (step ((st 0 [(4, 9)] .absent false).setLines [text ":0100000001FE"]))).map (fun t => t.mem) = some [(0, 1), (4, 9)] := by
  constructor <;> decide
theorem witness_PopulatedBytesNeverChange : (after (processLines [text ":0100000001FE", text ":0100000002FD"] State.reset)).map
    (fun t => (t.mem, t.result)) = some ([(0, 1)], some (.err .addressOverlap)) := by decide
theorem witness_DataAddressIsBaseHighHalfPlusOffset : dataAddress 0xFFFF0000 0xFFFF 254 = 0x000000FD ∧
    dataAddress 0x00012340 0 0 = 0x00010000 ∧ dataAddress 0 0xFFFE 2 = 0x00010000 ∧ (0 : Nat) < 255 ∧ (254 : Nat) < 255 := by decide
theorem witness_DataStoresItsPayload : ([1, 2, 3] : List Byte).length ≤ 255 ∧
    ([0, 1, 2].map fun i => Memory.get [(1, 7)] (dataAddress 0xFFFF0000 0xFFFE i)) = [none, none, none] := by decide
theorem witness_DataOverlapKeepsThePrefix : Memory.get [(0x10, 0x11)] (dataAddress 0 0x0E 0) = none ∧
    Memory.get [(0x10, 0x11)] (dataAddress 0 0x0E 1) = none ∧ Memory.get [(0x10, 0x11)] (dataAddress 0 0x0E 2) = some 0x11 := by decide
theorem witness_DataOverlapKeepsThePrefix_at_byte_0 : ∃ w, (0 : Nat) < ([5] : List Byte).length ∧
    Memory.get [(0, 1)] (dataAddress 0xFFFF0000 0xFFFF 1) = some w := ⟨1, by decide⟩
theorem witness_RepeatedDataRecordOverlaps : (after (exec (.data 0 [7]) State.reset)).map (fun t => (t.result, t.baseAddress.toNat / 65536)) =
    some (some .ok, 0) := by decide
theorem witness_BaseAdvancesByTheTotalLength : (execAllOk (([(0, [1, 2]), (2, [3])] : List (Half × List Byte)).map fun r => .data r.1 r.2)
    State.reset).map (fun t => t.baseAddress) = some 3 := by decide
theorem witness_EofSetsTheFlagOnce : (st 0 [] .absent true).eofFlag = true ∧ State.reset.eofFlag = false ∧
    ¬((1 : Half) = 0 ∧ ([] : List Byte) = []) ∧ ¬((0 : Half) = 0 ∧ ([0] : List Byte) = []) := by decide
theorem witness_EsaSetsTheSegmentBase : ([1, 2, 3] : List Byte).length ≠ 2 ∧ ([1] : List Byte).length ≠ 2 := by decide
theorem witness_ElaSetsTheLinearBase : ([] : List Byte).length ≠ 2 ∧ ([1, 2, 3] : List Byte).length ≠ 2 := by decide
theorem witness_MixedAddressingRecordsOverwrite : ∃ t u, exec (.ela 0 [0x12, 0x34]) State.reset = .next t ∧
    exec (.esa 0 [0x20, 0x00]) t = .next u ∧ u.baseAddress = 0x00020000 := ⟨_, _, rfl, rfl, by decide⟩
theorem witness_MixedAddressingRecordsOverwrite_reversed : ∃ t u, exec (.esa 0 [0x20, 0x00]) State.reset = .next t ∧
    exec (.ela 0 [0x12, 0x34]) t = .next u ∧ u.baseAddress = 0x12340000 := ⟨_, _, rfl, rfl, by decide⟩
theorem witness_AddressPortIsWhatTheRecordsDo : (after (exec (.esa 0 [0xFF, 0xFF]) State.reset)).isSome ∧
    (after (exec (.ela 0 [0xFF, 0xFF]) State.reset)).isSome ∧
    (after (exec (.data 0 [9]) State.reset)).map (fun t => t.result) = some (some .ok) := by decide
theorem witness_SsaRecordsTheFirstStart : ([1, 2, 3, 4] : List Byte).length = 4 ∧ ([1, 2, 3] : List Byte).length ≠ 4 ∧
    State.reset.startAddress = .absent ∧ (st 0 [] (.segmentCsIp 0 0) false).startAddress ≠ .absent := by decide
theorem witness_SlaRecordsTheFirstStart : ([1, 2, 3, 4] : List Byte).length = 4 ∧ ([1, 2, 3, 4, 5] : List Byte).length ≠ 4 ∧
    State.reset.startAddress = .absent ∧ (st 0 [] (.linear 0) false).startAddress ≠ .absent := by decide
theorem witness_StartAddressIsSetAtMostOnce :
    (after (step ((st 0 [] (.linear 0) false).setLines [text ":0400000312345678E5"]))).map (fun t => t.startAddress) = some (.linear 0) ∧
    (after (processLine (text ":0400000312345678E5") State.reset)).map (fun t => t.startAddress) = some (.segmentCsIp 0x1234 0x5678) := by
  decide
theorem witness_EofFlagGatesOnlyEof :
    (after (step ((st 0 [] .absent true).setLines [text ":0100000001FE"]))).map (fun t => (t.eofFlag, t.mem)) = some (true, [(0, 1)]) ∧
    decodeLine (text ":0100000001FE") = .ok (.data 0 [1]) ∧ decodeLine (text ":00000001FF") = .ok (.eof 0 []) := by decide
theorem witness_ShapeErrorsComeFromTheirProcessor : [":00123401B9", ":0100000200FD", ":00000004FC", ":00000003FD", ":00000005FB"].map
    (resultOf State.reset) = [some (.err .invalidEndOfFileRecord), some (.err .badExtendedSegmentAddressRecord),
      some (.err .badExtendedLinearAddressRecord), some (.err .badStartSegmentAddressRecord),
      some (.err .badStartLinearAddressRecord)] := by decide
theorem witness_DuplicateErrorsComeFromTheirProcessor : [":00000001FF", ":0400000300003800C1", ":04000005000000CD2A"].map
    (resultOf (st 0 [] (.linear 0) true)) = [some (.err .duplicateEndOfFileRecord), some (.err .duplicateStartAddressRecord),
      some (.err .duplicateStartAddressRecord)] := by decide
theorem witness_DecodeErrorsComeFromTheirCheck : ["", ":02000001FF", ":00000006FF", ":00000001FE"].map (resultOf State.reset) =
    [some (.err (.malformedLine .missingMarker)), some (.err .recordLengthMismatch), some (.err .unknownRecordType),
      some (.err .checksumMismatch)] := by decide
theorem witness_OverlapIsTheOnlyPartialError : [":010011009955", ":00000001FE"].map (resultOf (st 4 [(0x11, 0x22)] .absent false)) =
    [some (.err .addressOverlap), some (.err .checksumMismatch)] := by decide
theorem witness_StepRunsTheDecodedInstruction : (State.reset.setLines [text ":00000001FF"]).lines = text ":00000001FF" :: [] ∧
    decodeLine (text ":00000001FF") = .ok (.eof 0 []) ∧ decodeLine (text "") = .error (.malformedLine .missingMarker) := by decide
theorem witness_EveryStepWithALineCompletes : (after (step (State.reset.setLines [[]]))).map (fun t => t.result) =
    some (some (.err (.malformedLine .missingMarker))) ∧ after (step State.reset) = none := by decide
theorem witness_EachRecordTypeWritesOnlyItsElement : decodeLine (text "00") = .error (.malformedLine .missingMarker) ∧
    ([Instr.data 0 [1], .eof 0 [], .esa 0 [1, 2], .ela 0 [1, 2], .ssa 0 [1, 2, 3, 4], .sla 0 [1, 2, 3, 4]].map
      fun i => (after (exec i State.reset)).bind fun t => t.result) = List.replicate 6 (some .ok) := by decide
theorem witness_ResultPortAndErrorsLeaveNoTrace : resultOf State.reset ":02000001FF" = some (.err .recordLengthMismatch) := by decide

end Sys2Proof.Tests
end

section
/-! The run of the machine as the fold of `processLine` (R5). A line's effect neither reads nor writes the host's
queue, so what is still queued behind a line can be exchanged before it or after it. -/

namespace Sys2Proof.Machine

/-! ## The queue of lines is outside every meaning (R14, log entry 1) -/

/-- Writing the queue that is there already changes nothing. -/
theorem State.setLines_of_lines_eq {s : State} {ls : List Line} (h : s.lines = ls) : s.setLines ls = s := by
  subst h; rfl

@[simp] theorem State.setLines_setResult (s : State) (r : StepResult) (ls : List Line) :
    (s.setResult r).setLines ls = (s.setLines ls).setResult r := rfl
@[simp] theorem State.setLines_setEofFlag (s : State) (b : Bool) (ls : List Line) :
    (s.setEofFlag b).setLines ls = (s.setLines ls).setEofFlag b := rfl
@[simp] theorem State.setLines_setStartAddress (s : State) (a : StartAddress) (ls : List Line) :
    (s.setStartAddress a).setLines ls = (s.setLines ls).setStartAddress a := rfl

/-- No meaning writes the queue. -/
theorem exec_keeps_lines {i : Instr} {s t : State} (h : exec i s = .next t) : t.lines = s.lines := by
  rcases exec_cases h with ⟨_, _, rfl⟩ | ⟨_, _, _, _, rfl⟩ | ⟨_, _, _, _, rfl⟩ | ⟨_, _, _, _, rfl⟩ | ⟨_, _, _, _, rfl⟩ |
    ⟨_, _, _, _, _, rfl⟩ <;> simp

/-- Setting the start address does not read the queue. -/
theorem setStartOnce_setLines {a : StartAddress} {s t : State} (h : setStartOnce a s = .next t) (ls : List Line) :
    setStartOnce a (s.setLines ls) = .next (t.setLines ls) := by
  rcases setStartOnce_cases h with ⟨ha, rfl⟩ | ⟨ha, rfl⟩ <;> simp [setStartOnce, startIsSet, ha]

/-- No meaning reads the queue: with another queue it has the same effect, on that queue. -/
theorem exec_setLines {i : Instr} {s t : State} (h : exec i s = .next t) (ls : List Line) :
    exec i (s.setLines ls) = .next (t.setLines ls) := by
  cases i with
  | data o p =>
    simp only [exec, execData, State.setLines_baseAddress, State.setLines_mem] at h ⊢
    split at h <;> cases h <;> rfl
  | eof o p =>
    rcases execEof_cases h with ⟨hs, rfl⟩ | ⟨hs, hf, rfl⟩ | ⟨hs, hf, rfl⟩
    · simp [exec, execEof, hs]
    · simp [exec, execEof, eofIsSet, hs, hf]
    · simp [exec, execEof, eofIsSet, hs, hf]
  | esa o p =>
    simp only [exec, execEsa] at h ⊢
    split at h <;> cases h <;> rfl
  | ela o p =>
    simp only [exec, execEla] at h ⊢
    split at h <;> cases h <;> rfl
  | ssa o p =>
    simp only [exec, execSsa] at h ⊢
    split at h
    · exact setStartOnce_setLines h ls
    · cases h; rfl
  | sla o p =>
    simp only [exec, execSla] at h ⊢
    split at h
    · exact setStartOnce_setLines h ls
    · cases h; rfl

/-- Every line gives a next state. -/
theorem processLine_next (line : Line) (s : State) : ∃ t, processLine line s = .next t := by
  cases hd : decodeLine line with
  | error k => exact ⟨_, by rw [processLine_error hd, raiseError_eq]⟩
  | ok i => rw [processLine_ok hd]; exact exec_next i s

/-- `processLine` does not write the queue. -/
theorem processLine_keeps_lines {line : Line} {s t : State} (h : processLine line s = .next t) : t.lines = s.lines := by
  rcases processLine_cases h with ⟨_, _, rfl⟩ | ⟨_, _, hi⟩
  · rfl
  · exact exec_keeps_lines hi

/-- `processLine` does not read the queue. -/
theorem processLine_setLines {line : Line} {s t : State} (h : processLine line s = .next t) (ls : List Line) :
    processLine line (s.setLines ls) = .next (t.setLines ls) := by
  rcases processLine_cases h with ⟨k, hd, rfl⟩ | ⟨i, hd, hi⟩
  · rw [processLine_error hd]; rfl
  · rw [processLine_ok hd]; exact exec_setLines hi ls

/-! ## Runs, one line at a time -/

/-- A run whose first step gives a next state goes on from there. -/
theorem run_succ_of_next {s t : State} (h : step s = .next t) (k : Nat) :
    Host.Core.run core (k + 1) s = Host.Core.run core k t := by
  simp only [Host.Core.run, show core.step s = .next t from h]

/-- A fold whose first line gives a next state goes on from there. -/
theorem processLines_cons_of_next {line : Line} {s t : State} (h : processLine line s = .next t) (ls : List Line) :
    processLines (line :: ls) s = processLines ls t := by
  simp only [processLines, h]

/-- The fold over the first lines of the queue is a run of as many steps: each step takes its own line, and the lines
behind it are the same in the run as in the state the fold goes on from. -/
theorem run_eq_processLines (ls rest : List Line) : ∀ s : State, s.lines = ls ++ rest →
    Host.Core.run core ls.length s = processLines ls (s.setLines rest) := by
  induction ls with
  | nil =>
    intro s hs
    have hself : s.setLines rest = s := State.setLines_of_lines_eq hs
    exact congrArg Host.Outcome.next hself.symm
  | cons line ls ih =>
    intro s hs
    obtain ⟨t, ht⟩ := processLine_next line (s.setLines (ls ++ rest))
    have hstep : step s = .next t := (step_cons hs).trans ht
    have htl : t.lines = ls ++ rest := processLine_keeps_lines ht
    have hfold : processLine line (s.setLines rest) = .next (t.setLines rest) := processLine_setLines ht rest
    rw [processLines_cons_of_next hfold]
    exact (run_succ_of_next hstep ls.length).trans (ih t htl)

/-- Settles O48: a state whose queue is `ls ++ rest` is one the run lemma speaks of. -/
theorem runIsTheFoldOfProcessLine : Obligations.RunIsTheFoldOfProcessLine := fun ls rest s =>
  run_eq_processLines ls rest { s with lines := ls ++ rest } rfl

end Sys2Proof.Machine
end

section
/-! The memory image across a step, and the image as a map: its canonical form is kept by every line (R16, R31), and
two canonical images that read alike are the same list of cells. -/

namespace Sys2Proof.Machine

/-! ## What a step does to the image -/

/-- A meaning leaves the image as it was, or it is a DATA record's loop of puts at the base it found (R17, R136). -/
theorem exec_mem_cases {i : Instr} {s t : State} (h : exec i s = .next t) :
    t.mem = s.mem ∨ ∃ o p, i = .data o p ∧ t.mem = (storeFrom s.baseAddress o 0 p s.mem).1 := by
  rcases exec_cases h with ⟨_, _, rfl⟩ | ⟨o, p, hi, _, rfl⟩ | ⟨o, p, hi, _, rfl⟩ | ⟨_, _, _, _, rfl⟩ | ⟨_, _, _, _, rfl⟩ |
    ⟨_, _, _, _, _, rfl⟩
  · exact .inl rfl
  · exact .inr ⟨o, p, hi, rfl⟩
  · exact .inr ⟨o, p, hi, rfl⟩
  · exact .inl rfl
  · exact .inl rfl
  · exact .inl rfl

theorem exec_keeps_inv {i : Instr} {s t : State} (h : exec i s = .next t) (hs : s.Inv) : t.Inv := by
  rcases exec_mem_cases h with hm | ⟨o, p, -, hm⟩
  · rw [State.Inv, hm]; exact hs
  · rw [State.Inv, hm]; exact storeFrom_keeps_wf s.baseAddress o p 0 s.mem hs

theorem processLine_keeps_inv {line : Line} {s t : State} (h : processLine line s = .next t) (hs : s.Inv) : t.Inv := by
  rcases processLine_cases h with ⟨_, _, rfl⟩ | ⟨_, _, hi⟩
  · exact hs
  · exact exec_keeps_inv hi hs

/-- Settles O22: taking the line off the queue leaves the image, and every line keeps it canonical. -/
theorem stepKeepsImageCanonical : Obligations.StepKeepsImageCanonical := by
  intro s t hs h
  obtain ⟨line, rest, -, hp⟩ := step_cases h
  have htaken : (s.setLines rest).Inv := hs
  exact processLine_keeps_inv hp htaken

/-- Settles O21: the empty image rises. -/
theorem resetImageIsCanonical : Obligations.ResetImageIsCanonical := rfl

/-! ## Canonical images are determined by what they read -/

/-- The first cell of a rising image is read at its address. -/
theorem Memory.get_head {lo k : Nat} {v : Byte} {m : Memory} (h : Memory.risingFrom lo ((k, v) :: m) = true) :
    ∃ a : Addr, a.toNat = k ∧ Memory.get ((k, v) :: m) a = some v := by
  obtain ⟨-, hk, -⟩ := (Memory.risingFrom_cons lo k v m).mp h
  have ha : (BitVec.ofNat 32 k).toNat = k := (BitVec.toNat_ofNat k 32).trans (Nat.mod_eq_of_lt hk)
  exact ⟨BitVec.ofNat 32 k, ha, by rw [Memory.get_cons, if_pos ha.symm]⟩

/-- What the cells after the first read is determined by what the whole image reads: nothing at the first cell's own
address, which is below theirs, and the same elsewhere. -/
theorem Memory.get_tail {lo k : Nat} {v : Byte} {m : Memory} (h : Memory.risingFrom lo ((k, v) :: m) = true) (a : Addr) :
    Memory.get m a = if k = a.toNat then none else Memory.get ((k, v) :: m) a := by
  obtain ⟨-, -, hm⟩ := (Memory.risingFrom_cons lo k v m).mp h
  split
  · exact Memory.get_below m (k + 1) a hm (by omega)
  · rw [Memory.get_cons, if_neg ‹_›]

/-- A rising image with a cell does not read as the empty one. -/
theorem Memory.not_get_cons_eq_none {lo k : Nat} {v : Byte} {m : Memory}
    (h : Memory.risingFrom lo ((k, v) :: m) = true) : ¬ ∀ a, Memory.get ((k, v) :: m) a = none := by
  intro hnone
  obtain ⟨a, -, ha⟩ := Memory.get_head h
  simp [hnone a] at ha

/-- Of two rising images that read alike, neither starts above the other: the lowest cell of the one would be missing in
the other. -/
theorem Memory.head_le_of_get_eq {lo₁ lo₂ k₁ k₂ : Nat} {v₁ v₂ : Byte} {m₁ m₂ : Memory}
    (h₁ : Memory.risingFrom lo₁ ((k₁, v₁) :: m₁) = true) (h₂ : Memory.risingFrom lo₂ ((k₂, v₂) :: m₂) = true)
    (hget : ∀ a, Memory.get ((k₁, v₁) :: m₁) a = Memory.get ((k₂, v₂) :: m₂) a) : k₁ ≤ k₂ := by
  by_contra hlt
  obtain ⟨a, ha, hav⟩ := Memory.get_head h₂
  have hmiss : Memory.get m₁ a = none := by
    obtain ⟨-, -, hm₁⟩ := (Memory.risingFrom_cons lo₁ k₁ v₁ m₁).mp h₁
    exact Memory.get_below m₁ (k₁ + 1) a hm₁ (by omega)
  rw [← hget a, Memory.get_cons, if_neg (by omega), hmiss] at hav
  cases hav

/-- Two rising images that read alike have the same first cell. -/
theorem Memory.head_eq_of_get_eq {lo₁ lo₂ k₁ k₂ : Nat} {v₁ v₂ : Byte} {m₁ m₂ : Memory}
    (h₁ : Memory.risingFrom lo₁ ((k₁, v₁) :: m₁) = true) (h₂ : Memory.risingFrom lo₂ ((k₂, v₂) :: m₂) = true)
    (hget : ∀ a, Memory.get ((k₁, v₁) :: m₁) a = Memory.get ((k₂, v₂) :: m₂) a) : k₁ = k₂ ∧ v₁ = v₂ := by
  have hk : k₁ = k₂ :=
    le_antisymm (Memory.head_le_of_get_eq h₁ h₂ hget) (Memory.head_le_of_get_eq h₂ h₁ fun a => (hget a).symm)
  obtain ⟨a, ha, hav⟩ := Memory.get_head h₁
  rw [hget a, Memory.get_cons, if_pos (hk.symm.trans ha.symm)] at hav
  exact ⟨hk, (Option.some.inj hav).symm⟩

/-- Two rising images that read alike are equal, cell by cell from the lowest. -/
theorem Memory.eq_of_get_eq (m₁ : Memory) : ∀ (lo₁ lo₂ : Nat) (m₂ : Memory), Memory.risingFrom lo₁ m₁ = true →
    Memory.risingFrom lo₂ m₂ = true → (∀ a, Memory.get m₁ a = Memory.get m₂ a) → m₁ = m₂ := by
  induction m₁ with
  | nil =>
    intro _ _ m₂ _ h₂ hget
    cases m₂ with
    | nil => rfl
    | cons c m₂ => exact absurd (fun a => (hget a).symm) (Memory.not_get_cons_eq_none h₂)
  | cons c₁ m₁ ih =>
    intro lo₁ lo₂ m₂ h₁ h₂ hget
    cases m₂ with
    | nil => exact absurd hget (Memory.not_get_cons_eq_none h₁)
    | cons c₂ m₂ =>
      obtain ⟨k, v⟩ := c₁
      obtain ⟨k₂, v₂⟩ := c₂
      obtain ⟨rfl, rfl⟩ := Memory.head_eq_of_get_eq h₁ h₂ hget
      obtain ⟨-, -, hm₁⟩ := (Memory.risingFrom_cons lo₁ k v m₁).mp h₁
      obtain ⟨-, -, hm₂⟩ := (Memory.risingFrom_cons lo₂ k v m₂).mp h₂
      have htail : ∀ a, Memory.get m₁ a = Memory.get m₂ a := fun a => by
        rw [Memory.get_tail h₁, Memory.get_tail h₂, hget a]
      rw [ih (k + 1) (k + 1) m₂ hm₁ hm₂ htail]

/-- Settles O19: a canonical image is one that rises from 0. -/
theorem imagesThatReadAlikeAreEqual : Obligations.ImagesThatReadAlikeAreEqual :=
  fun m₁ m₂ h₁ h₂ hget => Memory.eq_of_get_eq m₁ 0 0 m₂ h₁ h₂ hget

end Sys2Proof.Machine
end

section
/-! The other three elements across a step: which record type may write each, and when (R10, R13, R15, R17). -/

namespace Sys2Proof.Machine

/-! ## One rule for each element -/

/-- The base is written by DATA, ESA and ELA records only (R11). -/
theorem exec_baseAddress_cases {i : Instr} {s t : State} (h : exec i s = .next t) :
    t.baseAddress = s.baseAddress ∨ i.recordType = .data ∨ i.recordType = .esa ∨ i.recordType = .ela := by
  rcases exec_cases h with ⟨_, _, rfl⟩ | ⟨_, _, _, _, rfl⟩ | ⟨_, _, rfl, _, _⟩ | ⟨_, _, _, _, rfl⟩ |
    ⟨_, _, _, rfl | rfl, _⟩ | ⟨_, _, _, _, _, rfl⟩
  · exact .inl rfl
  · exact .inl rfl
  · exact .inr (.inl rfl)
  · exact .inl rfl
  · exact .inr (.inr (.inl rfl))
  · exact .inr (.inr (.inr rfl))
  · exact .inl rfl

/-- The start address is written by SSA and SLA records only, and only when it is absent (R13, R186). -/
theorem exec_startAddress_cases {i : Instr} {s t : State} (h : exec i s = .next t) :
    t.startAddress = s.startAddress ∨ s.startAddress = .absent ∧ ∃ o p, i = .ssa o p ∨ i = .sla o p := by
  rcases exec_cases h with ⟨_, _, rfl⟩ | ⟨_, _, _, _, rfl⟩ | ⟨_, _, _, _, rfl⟩ | ⟨_, _, _, _, rfl⟩ | ⟨_, _, _, _, rfl⟩ |
    ⟨o, p, _, hi, habs, _⟩
  · exact .inl rfl
  · exact .inl rfl
  · exact .inl rfl
  · exact .inl rfl
  · exact .inl rfl
  · exact .inr ⟨habs, o, p, hi⟩

/-- The flag is written by the canonical EOF record only, which leaves it set (R15, R137). -/
theorem exec_eofFlag_cases {i : Instr} {s t : State} (h : exec i s = .next t) :
    t.eofFlag = s.eofFlag ∨ t.eofFlag = true ∧ i = .eof 0 [] := by
  rcases exec_cases h with ⟨_, _, rfl⟩ | ⟨_, _, _, _, rfl⟩ | ⟨_, _, _, _, rfl⟩ | ⟨o, p, rfl, _, _⟩ | ⟨_, _, _, _, rfl⟩ |
    ⟨_, _, _, _, _, rfl⟩
  · exact .inl rfl
  · exact .inl rfl
  · exact .inl rfl
  · rcases execEof_cases h with ⟨-, rfl⟩ | ⟨-, -, rfl⟩ | ⟨hshape, -, rfl⟩
    · exact .inl rfl
    · exact .inl rfl
    · obtain ⟨rfl, rfl⟩ := (isEofTerminator_iff o p).mp hshape
      exact .inr ⟨rfl, rfl⟩
  · exact .inl rfl
  · exact .inl rfl

/-! ## The start address -/

/-- A line that changes the start address found it absent and decodes to an SSA or SLA record (R13). -/
theorem processLine_startAddress_cases {line : Line} {s t : State} (h : processLine line s = .next t) :
    t.startAddress = s.startAddress ∨
      s.startAddress = .absent ∧ ∃ o p, decodeLine line = .ok (.ssa o p) ∨ decodeLine line = .ok (.sla o p) := by
  rcases processLine_cases h with ⟨_, _, rfl⟩ | ⟨i, hd, hi⟩
  · exact .inl rfl
  · simpa only [hd, Except.ok.injEq] using exec_startAddress_cases hi

/-- Settles O37: the two clauses about steps are the two ends of `processLine_startAddress_cases`. -/
theorem startAddressIsSetAtMostOnce : Obligations.StartAddressIsSetAtMostOnce := by
  refine ⟨rfl, ?_, ?_⟩
  · intro s t h hset
    obtain ⟨line, rest, -, hp⟩ := step_cases h
    exact (processLine_startAddress_cases hp).resolve_right fun ⟨habs, _⟩ => hset habs
  · intro line s t h hne
    exact (processLine_startAddress_cases h).resolve_left hne

/-! ## The end-of-file flag -/

/-- A line leaves the flag as it was, or it is the canonical EOF and leaves it set (R15). -/
theorem processLine_eofFlag_cases {line : Line} {s t : State} (h : processLine line s = .next t) :
    t.eofFlag = s.eofFlag ∨ t.eofFlag = true ∧ decodeLine line = .ok (.eof 0 []) := by
  rcases processLine_cases h with ⟨_, _, rfl⟩ | ⟨i, hd, hi⟩
  · exact .inl rfl
  · simpa only [hd, Except.ok.injEq] using exec_eofFlag_cases hi

@[simp] theorem State.setEofFlag_setResult (s : State) (r : StepResult) (b : Bool) :
    (s.setResult r).setEofFlag b = (s.setEofFlag b).setResult r := rfl
@[simp] theorem State.setEofFlag_setStartAddress (s : State) (a : StartAddress) (b : Bool) :
    (s.setStartAddress a).setEofFlag b = (s.setEofFlag b).setStartAddress a := rfl

/-- Setting the start address does not read the flag. -/
theorem setStartOnce_setEofFlag {a : StartAddress} {s t : State} (h : setStartOnce a s = .next t) (b : Bool) :
    setStartOnce a (s.setEofFlag b) = .next (t.setEofFlag b) := by
  rcases setStartOnce_cases h with ⟨ha, rfl⟩ | ⟨ha, rfl⟩
  · simp [setStartOnce, startIsSet, ha]
  · simp [setStartOnce, startIsSet, ha]

/-- No meaning but EOF's reads the flag: with another flag it has the same effect, beside that flag (R163). -/
theorem exec_setEofFlag {i : Instr} {s t : State} (hne : ∀ o p, i ≠ .eof o p) (h : exec i s = .next t) (b : Bool) :
    exec i (s.setEofFlag b) = .next (t.setEofFlag b) := by
  cases i with
  | data o p =>
    simp only [exec, execData, State.setEofFlag_baseAddress, State.setEofFlag_mem] at h ⊢
    split at h <;> cases h <;> rfl
  | eof o p => exact absurd rfl (hne o p)
  | esa o p =>
    rcases execEsa_cases h with ⟨hp, rfl⟩ | ⟨_, _, rfl, rfl⟩
    · simp only [exec, execEsa, operand16_none hp]; rfl
    · rfl
  | ela o p =>
    rcases execEla_cases h with ⟨hp, rfl⟩ | ⟨_, _, rfl, rfl⟩
    · simp only [exec, execEla, operand16_none hp]; rfl
    · rfl
  | ssa o p =>
    rcases execSsa_cases h with ⟨hp, rfl⟩ | ⟨_, _, _, _, rfl, hset⟩
    · simp only [exec, execSsa, operandCsIp_none hp]; rfl
    · exact setStartOnce_setEofFlag hset b
  | sla o p =>
    rcases execSla_cases h with ⟨hp, rfl⟩ | ⟨_, _, _, _, rfl, hset⟩
    · simp only [exec, execSla, operandEip_none hp]; rfl
    · exact setStartOnce_setEofFlag hset b

/-- A line that is no EOF record has the same effect with another flag, beside that flag (R163). -/
theorem processLine_setEofFlag {line : Line} {s t : State} (hne : ∀ o p, decodeLine line ≠ .ok (.eof o p))
    (h : processLine line s = .next t) (b : Bool) :
    processLine line (s.setEofFlag b) = .next (t.setEofFlag b) := by
  rcases processLine_cases h with ⟨k, hd, rfl⟩ | ⟨i, hd, hi⟩
  · rw [processLine_error hd]; rfl
  · rw [processLine_ok hd]
    exact exec_setEofFlag (fun o p e => hne o p (hd.trans (congrArg Except.ok e))) hi b

/-- An EOF record of the right shape sets a clear flag (R137). -/
theorem exec_eof_of_clear {o : Half} {p : List Byte} {s : State} (hshape : isEofTerminator o p = true)
    (hf : s.eofFlag = false) : exec (.eof o p) s = .next ((s.setEofFlag true).setResult .ok) := by
  simp [exec, execEof, eofIsSet, hshape, hf]

/-- A second EOF record of the right shape is a duplicate (R137, R181). -/
theorem exec_eof_of_set {o : Half} {p : List Byte} {s : State} (hshape : isEofTerminator o p = true)
    (hf : s.eofFlag = true) : exec (.eof o p) s = .next (s.setResult (.err .duplicateEndOfFileRecord)) := by
  simp [exec, execEof, eofIsSet, hshape, hf]

/-- Settles O38: the flag's clauses from what a line can do to it, the gating from what reads it. -/
theorem eofFlagGatesOnlyEof : Obligations.EofFlagGatesOnlyEof := by
  have hshape : isEofTerminator 0 [] = true := (isEofTerminator_iff 0 []).mpr ⟨rfl, rfl⟩
  refine ⟨rfl, ?_, ?_, ?_, ?_, ?_⟩
  · intro s t h hset
    obtain ⟨line, rest, -, hp⟩ := step_cases h
    rcases processLine_eofFlag_cases hp with hkept | ⟨htrue, -⟩
    · exact hkept.trans hset
    · exact htrue
  · intro line s t h hclear hset
    rcases processLine_eofFlag_cases h with hkept | ⟨-, hd⟩
    · simp [hkept, hclear] at hset
    · exact hd
  · intro line s t hne h
    rcases processLine_eofFlag_cases h with hkept | ⟨-, hd⟩
    · exact ⟨hkept, processLine_setEofFlag hne h true⟩
    · exact absurd hd (hne 0 [])
  · intro line s hd hclear
    exact (processLine_ok hd s).trans (exec_eof_of_clear hshape hclear)
  · intro line s hd hset
    exact (processLine_ok hd s).trans (exec_eof_of_set hshape hset)

/-! ## The frame of each record type -/

/-- Settles O49: one rule for each element; the target addresses of the loop of puts are those of its payload. -/
theorem eachRecordTypeWritesOnlyItsElement : Obligations.EachRecordTypeWritesOnlyItsElement := by
  refine ⟨?_, fun i s t h => ⟨exec_keeps_lines h, ?_, ?_, ?_, ?_, ?_⟩⟩
  · intro line k s t hd h
    rw [processLine_error hd] at h
    exact (raiseError_eq_next.mp h).symm
  · exact (exec_baseAddress_cases h).resolve_left
  · intro hne
    rcases exec_mem_cases h with hm | ⟨o, p, rfl, -⟩
    · exact hm
    · exact absurd rfl hne
  · intro _ a ha
    rcases exec_mem_cases h with hm | ⟨o, p, rfl, hm⟩
    · rw [hm]
    · rw [hm]
      exact storeFrom_get_other s.baseAddress o p 0 s.mem a (by simpa [Instr.payload, Instr.offset] using ha)
  · intro hne
    obtain ⟨-, o, p, rfl | rfl⟩ := (exec_startAddress_cases h).resolve_left hne
    · exact .inl rfl
    · exact .inr rfl
  · intro hne
    obtain ⟨-, rfl⟩ := (exec_eofFlag_cases h).resolve_left hne
    rfl

/-! ## Reset, and the packing of the start address -/

/-- Settles O1: the five surfaces of the reset state, each computed. -/
theorem resetIsTheInitialSession : Obligations.ResetIsTheInitialSession :=
  ⟨rfl, fun _ => rfl, rfl, rfl, rfl⟩

/-- The start address that a tag and a value field stand for (R13, D16): the inverse of the packing. -/
def unpackStart (tag : BitVec 2) : Option Word → StartAddress
  | none => .absent
  | some w => if tag = 1 then .segmentCsIp (w.extractLsb' 16 16) (w.extractLsb' 0 16) else .linear w

theorem unpackStart_pack (a : StartAddress) : unpackStart (startTag a) (startValue a) = a := by
  cases a with
  | absent => rfl
  | segmentCsIp cs ip =>
    exact congrArg₂ StartAddress.segmentCsIp BitVec.extractLsb'_append_eq_left BitVec.extractLsb'_append_eq_right
  | linear eip => rfl

/-- Settles O45: a packing that can be undone loses nothing; the tags are read off the three variants. -/
theorem startPackingIsFaithful : Obligations.StartPackingIsFaithful := by
  refine ⟨?_, ?_, ?_⟩
  · intro a
    cases a <;> simp [startTag]
  · intro a b htag hvalue
    rw [← unpackStart_pack a, htag, hvalue, unpackStart_pack b]
  · intro a
    cases a <;> simp [startTag]

end Sys2Proof.Machine
end

section
/-! The memory store (spec/20): `put` inserts and never overwrites, so a populated byte stays through every run of lines
(R32, R33); the enumeration lists the populated pairs of a canonical image and nothing else (R35). -/

namespace Sys2Proof.Machine

/-! ## Populated bytes stay (R32) -/

/-- A line leaves the image as it was, or it decodes to a DATA record and the image is what the record's loop of puts
makes of it (R17, R160). -/
theorem processLine_mem_cases {line : Line} {s t : State} (h : processLine line s = .next t) :
    t.mem = s.mem ∨
      ∃ o p, decodeLine line = .ok (.data o p) ∧ t.mem = (storeFrom s.baseAddress o 0 p s.mem).1 := by
  rcases processLine_cases h with ⟨_, _, rfl⟩ | ⟨i, hd, hi⟩
  · exact .inl rfl
  · simpa only [hd, Except.ok.injEq] using exec_mem_cases hi

theorem KeepsBytes.refl (s : State) : KeepsBytes s s := fun _ _ h => h

theorem KeepsBytes.trans {s t u : State} (hst : KeepsBytes s t) (htu : KeepsBytes t u) : KeepsBytes s u :=
  fun a v h => htu a v (hst a v h)

theorem processLine_keepsBytes {line : Line} {s t : State} (h : processLine line s = .next t) : KeepsBytes s t := by
  intro a v hv
  rcases processLine_mem_cases h with hm | ⟨o, p, -, hm⟩
  · rw [hm]; exact hv
  · rw [hm]; exact storeFrom_keeps_bytes s.baseAddress o p 0 s.mem a v hv

/-- Settles O23, by induction on the lines: each line keeps every populated byte, and the rest of the run keeps what
stood after it. -/
theorem populatedBytesNeverChange : Obligations.PopulatedBytesNeverChange := by
  intro ls
  induction ls with
  | nil => rintro s _ ⟨⟩; exact KeepsBytes.refl s
  | cons line ls ih =>
    intro s t h
    obtain ⟨u, hu⟩ := processLine_next line s
    rw [processLines_cons_of_next hu] at h
    exact (processLine_keepsBytes hu).trans (ih u t h)

/-! ## The store's `put` (R33) -/

theorem Memory.put_of_get_eq_none {m : Memory} {a : Addr} (h : Memory.get m a = none) (v : Byte) :
    Memory.put m a v = some (Memory.insert m a v) :=
  Memory.put_eq_some.mpr ⟨h, rfl⟩

/-- Settles O18: `put` is an insertion or fails, by what the address reads as; the image changes only through a DATA
record's loop of puts. -/
theorem putInsertsOnlyIfAbsent : Obligations.PutInsertsOnlyIfAbsent := by
  refine ⟨fun m a v => ⟨fun hfree => ?_, fun w hw => Memory.put_eq_none.mpr ⟨w, hw⟩⟩, fun line s t h hne => ?_⟩
  · exact ⟨Memory.insert m a v, Memory.put_of_get_eq_none hfree v, Memory.get_insert_same m a v hfree,
      fun b hb => Memory.get_insert_other m a b v hb⟩
  · obtain ⟨o, p, hd, -⟩ := (processLine_mem_cases h).resolve_left hne
    exact ⟨o, p, hd⟩

/-! ## The enumeration (R35) -/

/-- The pairs of a rising image are its reads: no later cell has an earlier cell's address, so none is shadowed, and
every cell's address is one of the 2^32. -/
theorem Memory.mem_pairs_iff (m : Memory) (a : Addr) (v : Byte) : ∀ lo, Memory.risingFrom lo m = true →
    ((a, v) ∈ m.map (fun c => (BitVec.ofNat 32 c.1, c.2)) ↔ Memory.get m a = some v) := by
  induction m with
  | nil => intro _ _; simp
  | cons c m ih =>
    intro lo h
    obtain ⟨k, w⟩ := c
    obtain ⟨-, hk, hm⟩ := (Memory.risingFrom_cons lo k w m).mp h
    have haddr : a = BitVec.ofNat 32 k ↔ k = a.toNat := by
      rw [Config.addressSpace] at hk; bv_omega
    rw [List.map_cons, List.mem_cons, ih (k + 1) hm, Memory.get_cons, Prod.mk.injEq, haddr]
    by_cases hka : k = a.toNat
    · have hshadowed : Memory.get m a = none := Memory.get_below m (k + 1) a hm (by omega)
      simp [hka, hshadowed, eq_comm]
    · simp [hka]

/-- Settles O20: a canonical image is one that rises from 0. -/
theorem enumerationIsThePopulatedSet : Obligations.EnumerationIsThePopulatedSet := fun s hs a v =>
  List.mem_toFinset.trans (Memory.mem_pairs_iff s.mem a v 0 hs)

end Sys2Proof.Machine
end

section
/-! From a line to an instruction and back (30_encoding.md). A record decodes exactly when its three fields read as the
instruction's and its checksum is valid; each field reads as a value exactly when the value stands at its bytes. Letter
case is lost in the codec, so the encoding of what a line decodes to is the line in upper case. -/

namespace Sys2Proof

/-! ## The fields of a record, byte by byte (R101 to R107) -/

theorem be16_eq_some_iff {rec : Record} {k : Nat} {v : Half} :
    be16 rec k = some v ↔ rec[k]? = some (v.extractLsb' 8 8) ∧ rec[k + 1]? = some (v.extractLsb' 0 8) := by
  constructor
  · intro h
    unfold be16 be8 at h
    split at h
    · next a b ha hb =>
      cases h
      exact ⟨ha.trans (congrArg some (extract_high a b).symm), hb.trans (congrArg some (extract_low a b).symm)⟩
    · cases h
  · rintro ⟨hhigh, hlow⟩
    rw [be16_eq_some hhigh hlow, half_of_bytes]

theorem recordTypeOf_eq_some_iff {b : Byte} {t : RecordType} : recordTypeOf b = some t ↔ b = recordTypeCode t :=
  ⟨fun h => (code_of_recordTypeOf h).symm, fun h => h ▸ recordTypeOf_code t⟩

theorem recType_eq_some_iff {rec : Record} {t : RecordType} :
    recType rec = some t ↔ rec[3]? = some (recordTypeCode t) := by
  unfold recType be8
  cases rec[3]? with
  | none => simp
  | some code => simp [recordTypeOf_eq_some_iff]

/-- A payload of at most 255 bytes has its length in its length byte (R53). -/
theorem lengthByte_toNat {n : Nat} (h : n ≤ 255) : (BitVec.ofNat 8 n).toNat = n :=
  Nat.mod_eq_of_lt (Nat.lt_succ_of_le h)

/-- A payload that a length byte can declare is read exactly where its length and its bytes stand (R106). -/
theorem recPayload_eq_some_iff {rec : Record} {p : List Byte} : recPayload rec = some p ↔
    p.length ≤ 255 ∧ rec.length = p.length + 5 ∧ rec[0]? = some (BitVec.ofNat 8 p.length) ∧
      ∀ k, k < p.length → rec[4 + k]? = p[k]? := by
  constructor
  · intro h
    unfold recPayload at h
    split at h
    · next n hn =>
      split_ifs at h with hsize
      cases h
      have hlen : ((rec.drop 4).take n.toNat).length = n.toNat := by simp [hsize]
      rw [hlen]
      refine ⟨Nat.le_of_lt_succ n.isLt, hsize, by simpa [recLength, be8] using hn, fun k hk => ?_⟩
      rw [List.getElem?_take_of_lt hk, List.getElem?_drop]
    · cases h
  · rintro ⟨hle, hsize, hlength, hbytes⟩
    have hn := lengthByte_toNat hle
    rw [recPayload_of_size hlength (by rw [hn]; exact hsize), hn]
    refine congrArg some (List.ext_getElem? fun k => ?_)
    by_cases hk : k < p.length
    · rw [List.getElem?_take_of_lt hk, List.getElem?_drop, hbytes k hk]
    · rw [List.getElem?_eq_none (by simp; omega), List.getElem?_eq_none (by omega)]

/-! ## Records and instructions (R104, R135) -/

/-- Reading the payload is the size check and reading the type the type check, so a record decodes exactly when its
fields read as the instruction's and its checksum is valid. -/
theorem decodeRecord_ok_iff {rec : Record} {i : Instr} : decodeRecord rec = .ok i ↔
    recType rec = some i.recordType ∧ recOffset rec = some i.offset ∧ recPayload rec = some i.payload ∧
      checksumValid rec = true := by
  constructor
  · intro h
    unfold decodeRecord at h
    split at h
    · cases h
    · next hvalid =>
      obtain ⟨-, -, -, -, -, hsum⟩ := (validateStructure_ok_iff rec).mp hvalid
      split at h
      · next t o p ht ho hp =>
        cases h
        simp [ht, ho, hp, hsum]
      · cases h
  · rintro ⟨ht, ho, hp, hsum⟩
    obtain ⟨hle, hsize, hlength, -⟩ := recPayload_eq_some_iff.mp hp
    have hvalid : validateStructure rec = .ok () :=
      (validateStructure_ok_iff rec).mpr ⟨_, _, hlength, by rw [lengthByte_toNat hle]; exact hsize, ht, hsum⟩
    simp [decodeRecord, hvalid, ht, ho, hp]

/-- Settles O13: the three fields byte by byte. -/
theorem decodedFieldsStandAtTheirBytes : Obligations.DecodedFieldsStandAtTheirBytes := by
  intro rec i
  have hsum : checksumValid rec = true ↔ byteSum rec % 256 = 0 := beq_iff_eq
  rw [decodeRecord_ok_iff, recType_eq_some_iff, recOffset, be16_eq_some_iff, recPayload_eq_some_iff, hsum,
    wellFormed_iff]
  tauto

/-- The record of a well-formed instruction decodes to the instruction (R53). -/
theorem decodeRecord_recordOf {i : Instr} (h : i.wellFormed = true) : decodeRecord (recordOf i) = .ok i := by
  obtain ⟨hlength, hsize, ht, hsum⟩ := Laws.RecordShape.shape i h
  refine decodeRecord_ok_iff.mpr ⟨ht, ?_, ?_, hsum⟩
  · exact be16_eq_some_iff.mpr (by simp [recordOf_eq])
  · refine recPayload_eq_some_iff.mpr ⟨(wellFormed_iff i).mp h, hsize, hlength, fun k hk => ?_⟩
    simp [recordOf_eq, Nat.add_comm 4 k, List.getElem?_append_left hk]

/-- A record with a valid checksum is sealed: its last byte is the one value that completes the others (R108). -/
theorem eq_sealRecord_take {rec : Record} {n : Nat} (hlen : rec.length = n + 1) (hsum : checksumValid rec = true) :
    rec = sealRecord (rec.take n) := by
  obtain ⟨c, hc⟩ : ∃ c, rec.drop n = [c] := List.length_eq_one_iff.mp (by simp [hlen])
  have hsplit : rec = rec.take n ++ [c] := by rw [← hc, List.take_append_drop]
  have hcheck : c = checksumByte (rec.take n) := eq_checksumByte (hsplit ▸ hsum)
  rw [sealRecord, ← hcheck]
  exact hsplit

/-- Two records that decode alike have the same header and payload bytes. -/
theorem take_eq_of_decodeRecord {r₁ r₂ : Record} {i : Instr} (h₁ : decodeRecord r₁ = .ok i)
    (h₂ : decodeRecord r₂ = .ok i) : r₁.take (i.payload.length + 4) = r₂.take (i.payload.length + 4) := by
  obtain ⟨-, -, length₁, high₁, low₁, type₁, payload₁, -⟩ := (decodedFieldsStandAtTheirBytes r₁ i).mp h₁
  obtain ⟨-, -, length₂, high₂, low₂, type₂, payload₂, -⟩ := (decodedFieldsStandAtTheirBytes r₂ i).mp h₂
  refine List.ext_getElem? fun k => ?_
  rw [List.getElem?_take, List.getElem?_take]
  split
  · next hk =>
    match k with
    | 0 => exact length₁.trans length₂.symm
    | 1 => exact high₁.trans high₂.symm
    | 2 => exact low₁.trans low₂.symm
    | 3 => exact type₁.trans type₂.symm
    | k + 4 => rw [Nat.add_comm k 4, payload₁ k (by omega), payload₂ k (by omega)]
  · rfl

/-- A record that decodes is the record of its instruction: the checksum byte, which no field reads, is determined by
the others (R54). -/
theorem eq_recordOf_of_decodeRecord {rec : Record} {i : Instr} (h : decodeRecord rec = .ok i) : rec = recordOf i := by
  obtain ⟨hwf, hsize, -⟩ := (decodedFieldsStandAtTheirBytes rec i).mp h
  obtain ⟨-, -, -, hsum⟩ := decodeRecord_ok_iff.mp h
  rw [eq_sealRecord_take hsize hsum, take_eq_of_decodeRecord h (decodeRecord_recordOf hwf),
    ← eq_sealRecord_take (length_recordOf i) (checksumValid_sealRecord _)]

/-! ## Lines and instructions (R51, R65) -/

theorem decodeLine_of_run {line : Line} {rec : Record} (h : bytesFromHexRun line = some rec) :
    decodeLine line = decodeRecord rec := by
  simp [decodeLine, (bytesFromHexRun_eq_some h).1, h]

/-- Settles O15: the encoder's line decodes to the instruction's record, and the record to the instruction. -/
theorem decodeOfEncodeIsTheInstruction : Obligations.DecodeOfEncodeIsTheInstruction := by
  intro i h
  have hsize : 5 ≤ (recordOf i).length := by rw [length_recordOf]; omega
  calc decodeLine (encode i) = decodeRecord (recordOf i) := decodeLine_of_run (bytesFromHexRun_lineOfRecord _ hsize)
    _ = .ok i := decodeRecord_recordOf h

theorem decodeLine_of_encode_eq {line : Line} {i : Instr} (hwf : i.wellFormed = true) (h : encode i = line) :
    decodeLine line = .ok i :=
  h ▸ decodeOfEncodeIsTheInstruction i hwf

/-- Settles O17: each line is the encoding of a well-formed instruction. -/
theorem linesOfTheSpecDecode : Obligations.LinesOfTheSpecDecode :=
  ⟨decodeLine_of_encode_eq rfl (by decide), decodeLine_of_encode_eq rfl (by decide),
    decodeLine_of_encode_eq rfl (by decide), decodeLine_of_encode_eq rfl (by decide),
    decodeLine_of_encode_eq rfl (by decide), decodeLine_of_encode_eq rfl (by decide)⟩

/-- The digits of a pair, in upper case, are the encoder's digits of the byte it decodes to (R66, R82). -/
theorem hexOfByte_of_byteFromHexPair {hi lo : Char8} {b : Byte} (h : byteFromHexPair hi lo = some b) :
    hexOfByte b = [upperCase hi, upperCase lo] := by
  obtain ⟨u, v, hu, hv, rfl⟩ := byteFromHexPair_eq_some.mp h
  have hhigh : (u ++ v).extractLsb' 4 4 = u := BitVec.extractLsb'_append_eq_left
  have hlow : (u ++ v).extractLsb' 0 4 = v := BitVec.extractLsb'_append_eq_right
  rw [hexOfByte, hhigh, hlow, nibbleToChar_of_charToNibble hi u hu, nibbleToChar_of_charToNibble lo v hv]

/-- The digits of a run that decodes, in upper case, are the encoder's digits of the bytes (R83). -/
theorem flatMap_hex_of_bytesFromPairs : ∀ (digits : List Char8) (rec : Record), bytesFromPairs digits = some rec →
    rec.flatMap hexOfByte = digits.map upperCase
  | [], _, h => by cases h; rfl
  | [_], _, h => by cases h
  | hi :: lo :: rest, rec, h => by
    simp only [bytesFromPairs] at h
    split at h
    · next b bs hb hbs =>
      cases h
      simp [hexOfByte_of_byteFromHexPair hb, flatMap_hex_of_bytesFromPairs rest bs hbs]
    · cases h

/-- A line that is read as a record is, in upper case, the line the encoder spells the record with. -/
theorem lineOfRecord_of_run {line : Line} {rec : Record} (h : bytesFromHexRun line = some rec) :
    lineOfRecord rec = line.map upperCase := by
  obtain ⟨hvalid, hpairs⟩ := bytesFromHexRun_eq_some h
  obtain ⟨digits, rfl, -⟩ := (validateLine_ok_iff line).mp hvalid
  have hmarker : upperCase markerChar = markerChar := by decide
  rw [lineOfRecord, flatMap_hex_of_bytesFromPairs digits rec hpairs, List.map_cons, hmarker]

/-- Settles O16: the record a decoding line spells is its instruction's record, and the line is its spelling. -/
theorem encodeOfDecodeIsTheLineInUpperCase : Obligations.EncodeOfDecodeIsTheLineInUpperCase := by
  intro line i h
  obtain ⟨-, rec, hrun, hrec⟩ := decodeLine_ok h
  obtain ⟨hwf, -⟩ := (decodedFieldsStandAtTheirBytes rec i).mp hrec
  refine ⟨hwf, ?_⟩
  rw [encode, ← eq_recordOf_of_decodeRecord hrec, lineOfRecord_of_run hrun]

/-! ## Letter case (R66) -/

theorem charToNibble_upperCase : ∀ c : Char8, charToNibble (upperCase c) = charToNibble c := by decide

theorem isHexDigit_upperCase (c : Char8) : isHexDigit (upperCase c) = isHexDigit c := by
  rw [← charToNibble_isSome, charToNibble_upperCase, charToNibble_isSome]

theorem upperCase_eq_marker_iff : ∀ c : Char8, upperCase c = markerChar ↔ c = markerChar := by decide

theorem byteFromHexPair_upperCase (hi lo : Char8) :
    byteFromHexPair (upperCase hi) (upperCase lo) = byteFromHexPair hi lo := by
  simp only [byteFromHexPair, charToNibble_upperCase]

theorem bytesFromPairs_map_upperCase : ∀ digits : List Char8,
    bytesFromPairs (digits.map upperCase) = bytesFromPairs digits
  | [] => rfl
  | [_] => rfl
  | hi :: lo :: rest => by
    simp only [List.map_cons, bytesFromPairs, byteFromHexPair_upperCase, bytesFromPairs_map_upperCase rest]

theorem validateLine_map_upperCase (line : Line) : validateLine (line.map upperCase) = validateLine line := by
  cases line with
  | nil => rfl
  | cons c digits =>
    have hdigits : (digits.map upperCase).all isHexDigit = digits.all isHexDigit := by
      rw [List.all_map]
      exact congrArg digits.all (funext isHexDigit_upperCase)
    simp only [validateLine, List.map_cons, List.length_cons, List.length_map, ne_eq, upperCase_eq_marker_iff, hdigits]

theorem bytesFromHexRun_map_upperCase (line : Line) : bytesFromHexRun (line.map upperCase) = bytesFromHexRun line := by
  simp only [bytesFromHexRun, validateLine_map_upperCase, ← List.map_drop, bytesFromPairs_map_upperCase]

/-- No check and no digit of a line depends on letter case. -/
theorem decodeLine_map_upperCase (line : Line) : decodeLine (line.map upperCase) = decodeLine line := by
  simp only [decodeLine, validateLine_map_upperCase, bytesFromHexRun_map_upperCase]

/-- Settles O7: both lines decode as their common upper-case form, and a line has its effect through what it decodes
to alone. -/
theorem letterCaseCarriesNoMeaning : Obligations.LetterCaseCarriesNoMeaning := by
  intro l₁ l₂ h
  have hdecode : decodeLine l₁ = decodeLine l₂ := by
    rw [← decodeLine_map_upperCase l₁, h, decodeLine_map_upperCase]
  exact ⟨hdecode, fun s => by simp only [Machine.processLine, hdecode]⟩

/-! ## The hex pair and the table of type codes (R50, R55) -/

/-- Settles O3: the pair's byte is the high nibble before the low one. -/
theorem hexPairSpellsHighNibbleFirst : Obligations.HexPairSpellsHighNibbleFirst := by
  intro hi lo h l hh hl
  have hbyte : byteFromHexPair hi lo = some (h ++ l) := byteFromHexPair_eq_some.mpr ⟨h, l, hh, hl, rfl⟩
  have hor : h ++ l = (h.setWidth 8 <<< 4) ||| l.setWidth 8 := by
    rw [BitVec.append_def, BitVec.shiftLeftZeroExtend_eq, BitVec.setWidth'_eq]
  exact ⟨h ++ l, hbyte, hor, BitVec.extractLsb'_append_eq_left, BitVec.extractLsb'_append_eq_right⟩

/-- A byte selects no type exactly when it is no code of the table (R63). -/
theorem recordTypeOf_eq_none_iff {b : Byte} : recordTypeOf b = none ↔ 5 < b.toNat := by
  have hsearch : recordTypeOf b = none ↔ 0 ≠ b ∧ 1 ≠ b ∧ 2 ≠ b ∧ 3 ≠ b ∧ 4 ≠ b ∧ 5 ≠ b := by
    simp [recordTypeOf, recordTypes, recordTypeCode]
  rw [hsearch]
  bv_omega

/-- Settles O11: the table read off, and the selector as the search in it. -/
theorem typeCodesAreZeroToFive : Obligations.TypeCodesAreZeroToFive :=
  ⟨rfl, recordTypeOf_code, fun _ => recordTypeOf_eq_none_iff⟩

end Sys2Proof
end

section
/-! The hex codec (40_hex_codec.md): a digit, a pair and a run of pairs have a result exactly where their precondition
holds, and a run's byte `r` is the pair at characters `1 + 2r` and `2 + 2r` of its line (R80 to R83, U1, D19). -/

namespace Sys2Proof

/-! ## A digit and a pair (R80 to R82) -/

/-- A pair has a result when each of its characters has one (R82). -/
theorem byteFromHexPair_isSome (hi lo : Char8) :
    (byteFromHexPair hi lo).isSome = ((charToNibble hi).isSome && (charToNibble lo).isSome) := by
  unfold byteFromHexPair
  cases charToNibble hi <;> cases charToNibble lo <;> rfl

/-- The digits `0` to `9`, `A` to `F` and `a` to `f`: ten and twice six of the 256 codes (R94). -/
theorem length_filter_isHexDigit :
    ((List.range 256).filter fun n => isHexDigit (BitVec.ofNat 8 n)).length = 22 := by decide

/-- Settles O4: the domain is the codec's own lemma; the values are read off the table of digits. -/
theorem codecIsDefinedExactlyOnHexDigits : Obligations.CodecIsDefinedExactlyOnHexDigits :=
  ⟨charToNibble_isSome, by decide, by decide, length_filter_isHexDigit⟩

/-! ## A run of pairs (R83) -/

/-- A validated line decodes, and its record is read from the pairs after the marker (R83, R95). -/
theorem bytesFromHexRun_total {line : Line} (h : validateLine line = .ok ()) :
    ∃ rec, bytesFromHexRun line = some rec := by
  obtain ⟨digits, rfl, heven, -, hhex⟩ := (validateLine_ok_iff line).mp h
  obtain ⟨rec, hpairs, -⟩ := bytesFromPairs_total digits heven hhex
  exact ⟨rec, (bytesFromHexRun_of_valid h).trans hpairs⟩

/-- Settles O51: the pair asks for its two digits, and the run for the validator's verdict, after which no digit
fails. -/
theorem hexRunIsDefinedExactlyOnWellFormedLines : Obligations.HexRunIsDefinedExactlyOnWellFormedLines := by
  refine ⟨fun hi lo => ?_, fun line => ?_⟩
  · rw [byteFromHexPair_isSome, charToNibble_isSome, charToNibble_isSome]
  · rw [Option.isSome_iff_exists]
    exact ⟨fun ⟨_, hrun⟩ => (bytesFromHexRun_eq_some hrun).1, bytesFromHexRun_total⟩

/-- Settles O6: the digits of the line stand one place after those of the run, which decodes pair by pair. -/
theorem validatedLineDecodesPairByPair : Obligations.ValidatedLineDecodesPairByPair := by
  intro line h
  obtain ⟨rec, hrun⟩ := bytesFromHexRun_total h
  obtain ⟨-, hpairs⟩ := bytesFromHexRun_eq_some hrun
  obtain ⟨digits, rfl, -, hten, -⟩ := (validateLine_ok_iff line).mp h
  obtain ⟨hlength, hbytes⟩ := bytesFromPairs_get digits rec hpairs
  have hhalf : rec.length = ((markerChar :: digits).length - 1) / 2 := by
    rw [List.length_cons]
    omega
  exact ⟨rec, hrun, hhalf, by omega, hbytes⟩

end Sys2Proof
end

section
/-! The line validator (41_line_validator.md): the four checks in R90's order, and the lines each result is given
for. -/

namespace Sys2Proof

theorem forall_isHexDigit_iff {digits : List Char8} :
    (∀ c ∈ digits, isHexDigit c = true) ↔ ¬ ∃ c ∈ digits, isHexDigit c = false := by simp

/-- The validator as R90 words it, each check on the whole line: the empty line has no first character, so it fails
the first check (D6). -/
theorem validateLine_eq_checks (line : Line) : validateLine line =
    if line.head? ≠ some markerChar then .error (.malformedLine .missingMarker)
    else if line.length % 2 = 0 then .error (.malformedLine .badLengthParity)
    else if line.length < 11 then .error (.malformedLine .tooShort)
    else if ∃ c ∈ line.drop 1, isHexDigit c = false then .error (.malformedLine .invalidCharacter)
    else .ok () := by
  cases line with
  | nil => rfl
  | cons c digits =>
    simp only [validateLine, List.head?_cons, ne_eq, Option.some.injEq, List.drop_succ_cons, List.drop_zero,
      List.all_eq_true, forall_isHexDigit_iff, ite_not]

/-- Settles O5: the checks are split in their order. The first that fails fixes the result and excludes the other four
clauses; when none fails the line is accepted. -/
theorem validatorReportsTheFirstFailingCheck : Obligations.ValidatorReportsTheFirstFailingCheck := by
  intro line
  rw [validateLine_eq_checks, forall_isHexDigit_iff]
  by_cases hmarker : line.head? = some markerChar
  case neg => simp [hmarker]
  by_cases heven : line.length % 2 = 0
  case pos => simp [hmarker, heven]
  have hodd : line.length % 2 = 1 := Nat.mod_two_ne_zero.mp heven
  by_cases hshort : line.length < 11
  case pos => simp [hmarker, hodd, hshort]
  have hlong : 11 ≤ line.length := Nat.le_of_not_gt hshort
  by_cases hbad : ∃ c ∈ line.drop 1, isHexDigit c = false
  case pos => simp [hmarker, hodd, hshort, hlong, hbad, -List.drop_one]
  case neg => simp [hmarker, hodd, hshort, hlong, hbad, -List.drop_one]

end Sys2Proof
end

section
/-! The record model (42_record_model.md): the fields of a record are the big-endian values of its bytes, structural
validation is three checks in order, the payload is what the length byte declares, and the checksum test is an 8-bit
accumulator (R101 to R109). -/

namespace Sys2Proof

/-! ## Field extraction (R103, R107) -/

theorem be32_eq_some {rec : Record} {k : Nat} {a b c d : Byte} (ha : rec[k]? = some a) (hb : rec[k + 1]? = some b)
    (hc : rec[k + 2]? = some c) (hd : rec[k + 3]? = some d) : be32 rec k = some ((a ++ b) ++ (c ++ d)) := by
  simp [be32, be16_eq_some ha hb, be16_eq_some hc hd]

/-- Four bytes as a number, the first the most significant (R36). -/
theorem toNat_append_bytes (a b c d : Byte) :
    ((a ++ b) ++ (c ++ d) : Word).toNat = ((a.toNat * 256 + b.toNat) * 256 + c.toNat) * 256 + d.toNat := by
  rw [toNat_append_half, toNat_append_byte, toNat_append_byte]
  omega

/-- Settles O8: a field whose bytes are there is their concatenation, and that reads as a big-endian number. -/
theorem fieldsAreBigEndian : Obligations.FieldsAreBigEndian :=
  ⟨fun _ a b ha hb => ⟨a ++ b, be16_eq_some ha hb, toNat_append_byte a b⟩,
    fun _ _ => rfl,
    fun _ _ a b ha hb => ⟨a ++ b, be16_eq_some ha hb, toNat_append_byte a b⟩,
    fun _ _ a b c d ha hb hc hd => ⟨(a ++ b) ++ (c ++ d), be32_eq_some ha hb hc hd, toNat_append_bytes a b c d⟩⟩

theorem be8_eq_none_iff {rec : Record} {k : Nat} : be8 rec k = none ↔ rec.length < k + 1 :=
  List.getElem?_eq_none_iff.trans Nat.lt_succ_iff.symm

/-- A 16-bit field is missing when its second byte is: the first stands before it. -/
theorem be16_eq_none_iff {rec : Record} {k : Nat} : be16 rec k = none ↔ rec.length < k + 2 := by
  have hparts : be16 rec k = none ↔ be8 rec k = none ∨ be8 rec (k + 1) = none := by
    unfold be16
    cases be8 rec k <;> cases be8 rec (k + 1) <;> simp
  rw [hparts, be8_eq_none_iff, be8_eq_none_iff]
  omega

/-- A 32-bit field is missing when its second half is. -/
theorem be32_eq_none_iff {rec : Record} {k : Nat} : be32 rec k = none ↔ rec.length < k + 4 := by
  have hparts : be32 rec k = none ↔ be16 rec k = none ∨ be16 rec (k + 2) = none := by
    unfold be32
    cases be16 rec k <;> cases be16 rec (k + 2) <;> simp
  rw [hparts, be16_eq_none_iff, be16_eq_none_iff]
  omega

/-- Settles O9: each width by the bytes or halves it is made of. -/
theorem extractionPastTheEndHasNoResult : Obligations.ExtractionPastTheEndHasNoResult :=
  fun _ _ => ⟨be8_eq_none_iff, be16_eq_none_iff, be32_eq_none_iff⟩

/-! ## Structural validation (R104) -/

theorem checksumValid_iff {rec : Record} : checksumValid rec = true ↔ byteSum rec % 256 = 0 := beq_iff_eq

/-- The three checks as R104 words them, on a record that has a length byte. -/
theorem validateStructure_eq_checks {rec : Record} {n : Byte} (hn : rec[0]? = some n) : validateStructure rec =
    if rec.length ≠ n.toNat + 5 then .error .recordLengthMismatch
    else if recType rec = none then .error .unknownRecordType
    else if byteSum rec % 256 ≠ 0 then .error .checksumMismatch
    else .ok () := by
  have hlength : recLength rec = some n := hn
  simp only [validateStructure, hlength, ← checksumValid_iff, ne_eq, Bool.not_eq_true]

/-- Settles O10: the checks are split in their order. The first that fails fixes the result and excludes the other
three clauses; when none fails the record is accepted. -/
theorem structureChecksRunInOrder : Obligations.StructureChecksRunInOrder := by
  intro rec n hn
  rw [validateStructure_eq_checks hn]
  by_cases hsize : rec.length = n.toNat + 5
  case neg => simp [hsize]
  by_cases htype : recType rec = none
  case pos => simp [hsize, htype]
  by_cases hsum : byteSum rec % 256 = 0 <;> simp [hsize, htype, hsum]

/-! ## The payload and the length byte (R106, R109) -/

/-- A record with a payload has the size its length byte declares, and the payload the declared length. -/
theorem size_of_recPayload {rec : Record} {n : Byte} {p : List Byte} (hn : rec[0]? = some n)
    (hp : recPayload rec = some p) : rec.length = n.toNat + 5 ∧ p.length = n.toNat := by
  obtain ⟨hle, hsize, hlength, -⟩ := recPayload_eq_some_iff.mp hp
  have hbyte : n = BitVec.ofNat 8 p.length := Option.some.inj (hn.symm.trans hlength)
  have hvalue : n.toNat = p.length := hbyte ▸ lengthByte_toNat hle
  exact ⟨hvalue ▸ hsize, hvalue.symm⟩

/-- Settles O52: the size check gives a payload, whose bytes are then the record's; a payload in turn gives the size
check. -/
theorem payloadNeedsTheSizeCheck : Obligations.PayloadNeedsTheSizeCheck := by
  intro rec n hn
  constructor
  · intro hsize
    have hp := recPayload_of_size hn hsize
    obtain ⟨-, hlen⟩ := size_of_recPayload hn hp
    obtain ⟨-, -, -, hbytes⟩ := recPayload_eq_some_iff.mp hp
    refine ⟨_, hp, hlen, fun i hi => (hbytes i (hi.trans_eq hlen.symm)).symm, ?_⟩
    rw [List.getLast?_eq_getElem?, hsize, show n.toNat + 5 - 1 = 4 + n.toNat by omega]
  · intro hsize
    exact Option.eq_none_iff_forall_ne_some.mpr fun p hp => hsize (size_of_recPayload hn hp).1

/-- A line that spells a record has the marker and two characters for each byte (R51, R83). -/
theorem length_of_run {line : Line} {rec : Record} (h : bytesFromHexRun line = some rec) :
    line.length = 2 * rec.length + 1 := by
  obtain ⟨hvalid, hpairs⟩ := bytesFromHexRun_eq_some h
  obtain ⟨digits, rfl, -⟩ := (validateLine_ok_iff line).mp hvalid
  obtain ⟨hlength, -⟩ := bytesFromPairs_get digits rec hpairs
  rw [List.length_cons]
  omega

/-- Settles O14: the line's length is that of its record doubled, and a record that decodes has a payload. -/
theorem lineLengthMatchesDeclaredLength : Obligations.LineLengthMatchesDeclaredLength := by
  intro line rec n _ hrun hn
  constructor
  · have := length_of_run hrun
    omega
  · intro i hi
    obtain ⟨-, -, hp, -⟩ := decodeRecord_ok_iff.mp ((decodeLine_of_run hrun).symm.trans hi)
    exact size_of_recPayload hn hp

/-! ## The checksum (R105, R108) -/

/-- The accumulator discards carries, so from any start it holds the running sum modulo 256. -/
theorem toNat_foldl_add (rec : Record) : ∀ acc : Byte,
    (rec.foldl (fun acc b => acc + b) acc).toNat = (acc.toNat + byteSum rec) % 256 := by
  induction rec with
  | nil => intro acc; exact (Nat.mod_eq_of_lt acc.isLt).symm
  | cons b rec ih =>
    intro acc
    rw [List.foldl_cons, ih, byteSum_cons, BitVec.toNat_add, Nat.mod_add_mod, Nat.add_assoc]

theorem checksumAccumulator_toNat (rec : Record) : (checksumAccumulator rec).toNat = byteSum rec % 256 :=
  (toNat_foldl_add rec 0).trans (by simp)

theorem byteSum_perm {r₁ r₂ : Record} (h : r₁.Perm r₂) : byteSum r₁ = byteSum r₂ :=
  (h.map _).sum_eq

/-- Replacing a byte changes the sum by the difference of the two bytes. -/
theorem byteSum_set {old : Byte} (new : Byte) : ∀ {rec : Record} {i : Nat}, rec[i]? = some old →
    byteSum (rec.set i new) + old.toNat = byteSum rec + new.toNat
  | b :: rec, 0, h => by
    cases h
    simp only [List.set_cons_zero, byteSum_cons]
    omega
  | b :: rec, i + 1, h => by
    have ih := byteSum_set new (rec := rec) (i := i) h
    simp only [List.set_cons_succ, byteSum_cons]
    omega

theorem byteSum_replicate_zero (n : Nat) : byteSum (List.replicate n 0) = 0 := by
  simp [byteSum]

/-- Exactly one last byte completes a record (R108). -/
theorem checksumValid_append_iff {body : List Byte} {c : Byte} :
    checksumValid (body ++ [c]) = true ↔ c = checksumByte body :=
  ⟨eq_checksumByte, fun h => h ▸ checksumValid_sealRecord body⟩

/-- Two different bytes differ by less than 256, so no single change keeps the sum a multiple of 256 (R108). -/
theorem checksumValid_set_of_ne {rec : Record} {i : Nat} {old new : Byte} (hi : rec[i]? = some old)
    (hne : new ≠ old) (hvalid : checksumValid rec = true) : checksumValid (rec.set i new) = false := by
  rw [← Bool.not_eq_true, checksumValid_iff]
  rw [checksumValid_iff] at hvalid
  have hset := byteSum_set new hi
  have hne' : new.toNat ≠ old.toNat := mt BitVec.eq_of_toNat_eq hne
  have hnew := new.isLt
  have hold := old.isLt
  omega

/-- Settles O12: each clause is what the accumulator's law, or the byte sum's, says modulo 256. -/
theorem checksumIsAnEightBitAccumulator : Obligations.ChecksumIsAnEightBitAccumulator := by
  refine ⟨fun rec => ?_, fun r₁ r₂ h => ?_, fun body c => ?_, fun rec i old new => checksumValid_set_of_ne, fun n => ?_⟩
  · rw [checksumValid_iff, ← checksumAccumulator_toNat, BitVec.toNat_eq]
    rfl
  · rw [checksumValid, checksumValid, byteSum_perm h]
  · rw [checksumValid_append_iff, ← checksumByte_toNat, BitVec.toNat_eq]
  · rw [checksumValid_iff, byteSum_replicate_zero]

end Sys2Proof
end

section
/-! The address translator (43_address_translator.md): the data address and the bases as numbers, the total advance over
a run of DATA records, and the two records that overwrite the base. -/

namespace Sys2Proof.Machine

/-! ## The data address as a number (R123, R124, R127) -/

theorem toNat_dataAddress (base : Word) (off : Half) (i : Nat) :
    (dataAddress base off i).toNat = (base.toNat / 65536 * 65536 + off.toNat + i) % 4294967296 := by
  have hoff := off.isLt
  rw [dataAddress, BitVec.toNat_add, BitVec.toNat_add, toNat_and_highMask, BitVec.toNat_setWidth, BitVec.toNat_ofNat]
  omega

theorem dataAddress_succ (base : Word) (off : Half) (i : Nat) :
    dataAddress base off (i + 1) = dataAddress base off i + 1 := by
  rw [dataAddress, dataAddress, BitVec.ofNat_add]
  exact (BitVec.add_assoc _ _ _).symm

/-- Settles O24: the address as a number, its injectivity in the index, and its successor. -/
theorem dataAddressIsBaseHighHalfPlusOffset : Obligations.DataAddressIsBaseHighHalfPlusOffset :=
  ⟨toNat_dataAddress, fun base off _ _ hi hj => dataAddress_ne base off (by omega) (by omega), dataAddress_succ⟩

/-- Only the high half of the base reaches an address. -/
theorem dataAddress_congr {base base' : Word} (h : base.toNat / 65536 = base'.toNat / 65536) (off : Half) (i : Nat) :
    dataAddress base off i = dataAddress base' off i :=
  BitVec.eq_of_toNat_eq (by rw [toNat_dataAddress, toNat_dataAddress, h])

/-- Settles O33: the segment base of `seg` and the linear base of `seg >> 12` have the same high half. -/
theorem segmentBaseKeepsOnlyItsTopNibble : Obligations.SegmentBaseKeepsOnlyItsTopNibble := by
  intro seg off i
  refine dataAddress_congr ?_ off i
  rw [toNat_segmentBase, toNat_linearBase, BitVec.toNat_ushiftRight, Nat.shiftRight_eq_div_pow]
  omega

/-! ## Runs of DATA records (R126) -/

theorem toNat_advanceBase (base : Word) (n : Nat) : (advanceBase base n).toNat = (base.toNat + n) % 4294967296 := by
  rw [advanceBase, BitVec.toNat_add, BitVec.toNat_ofNat, Nat.add_mod_mod]

/-- A DATA record that ends in `Ok` advances the base by its payload length (R125). -/
theorem exec_data_baseAddress_of_endedOk {o : Half} {p : List Byte} {s t : State} (h : exec (.data o p) s = .next t)
    (hok : t.endedOk = true) : t.baseAddress = advanceBase s.baseAddress p.length := by
  rcases execData_cases h with ⟨-, rfl⟩ | ⟨-, rfl⟩
  · rfl
  · simp [State.endedOk] at hok

/-- A clean run of one more instruction is a step that ends in `Ok` and a clean run from where it leads. -/
theorem execAllOk_cons {i : Instr} {rest : List Instr} {s t : State} :
    execAllOk (i :: rest) s = some t ↔
      ∃ u, exec i s = .next u ∧ u.endedOk = true ∧ execAllOk rest u = some t := by
  obtain ⟨u, hu⟩ := exec_next i s
  simp [execAllOk, hu]

/-- A clean run of DATA records advances the base by their total payload length. -/
theorem execAllOk_data_baseAddress (recs : List (Half × List Byte)) : ∀ s t : State,
    execAllOk (recs.map fun r => .data r.1 r.2) s = some t →
    t.baseAddress.toNat = (s.baseAddress.toNat + (recs.map fun r => r.2.length).sum) % 4294967296 := by
  induction recs with
  | nil =>
    rintro s _ ⟨⟩
    exact (Nat.mod_eq_of_lt s.baseAddress.isLt).symm
  | cons r recs ih =>
    intro s t h
    obtain ⟨u, hu, hok, hrest⟩ := execAllOk_cons.mp h
    rw [ih u t hrest, exec_data_baseAddress_of_endedOk hu hok, toNat_advanceBase, Nat.mod_add_mod, Nat.add_assoc,
      List.map_cons, List.sum_cons]

/-- Settles O28: the base by induction on the records; the address is the formula at that base. -/
theorem baseAdvancesByTheTotalLength : Obligations.BaseAdvancesByTheTotalLength := by
  intro recs s t h
  have hbase := execAllOk_data_baseAddress recs s t h
  exact ⟨hbase, fun off i => by rw [toNat_dataAddress, hbase]⟩

/-! ## ESA and ELA (R121, R122, R128) -/

/-- The success end of a record that overwrites the base. -/
theorem returnOk_setBaseAddress (s : State) (v : Word) :
    returnOk (s.setBaseAddress v) = .next { s with baseAddress := v, result := some .ok } := rfl

theorem exec_esa_pair (o : Half) (a b : Byte) (s : State) :
    exec (.esa o [a, b]) s = .next { s with baseAddress := segmentBase (a ++ b), result := some .ok } :=
  returnOk_setBaseAddress s (segmentBase (a ++ b))

theorem exec_ela_pair (o : Half) (a b : Byte) (s : State) :
    exec (.ela o [a, b]) s = .next { s with baseAddress := linearBase (a ++ b), result := some .ok } :=
  returnOk_setBaseAddress s (linearBase (a ++ b))

theorem exec_esa_of_length_ne {p : List Byte} (h : p.length ≠ 2) (o : Half) (s : State) :
    exec (.esa o p) s = .next (s.setResult (.err .badExtendedSegmentAddressRecord)) := by
  simp only [exec, execEsa, operand16_none h, raiseError]

theorem exec_ela_of_length_ne {p : List Byte} (h : p.length ≠ 2) (o : Half) (s : State) :
    exec (.ela o p) s = .next (s.setResult (.err .badExtendedLinearAddressRecord)) := by
  simp only [exec, execEla, operand16_none h, raiseError]

/-- Settles O30: the base is the segment base of the two bytes. -/
theorem esaSetsTheSegmentBase : Obligations.EsaSetsTheSegmentBase := by
  refine ⟨fun o a b s => ⟨segmentBase (a ++ b), ?_, exec_esa_pair o a b s⟩, fun o p s h => exec_esa_of_length_ne h o s⟩
  rw [toNat_segmentBase, toNat_append_byte]

/-- Settles O31: the base is the linear base of the two bytes. -/
theorem elaSetsTheLinearBase : Obligations.ElaSetsTheLinearBase := by
  refine ⟨fun o a b s => ⟨linearBase (a ++ b), ?_, exec_ela_pair o a b s⟩, fun o p s h => exec_ela_of_length_ne h o s⟩
  rw [toNat_linearBase, toNat_append_byte]

/-- Settles O32: the later record's writes cover both fields the earlier one wrote. -/
theorem mixedAddressingRecordsOverwrite : Obligations.MixedAddressingRecordsOverwrite := by
  intro o₁ o₂ a b c d s t u
  simp only [exec_esa_pair, exec_ela_pair, Host.Outcome.next.injEq]
  constructor
  · rintro rfl rfl
    exact ⟨rfl, rfl⟩
  · rintro rfl rfl
    exact ⟨rfl, rfl⟩

end Sys2Proof.Machine
end

section
/-! The record processors (44_record_processors.md): the DATA record's two ends with the image its loop of puts leaves,
and the EOF, SSA and SLA records in full, their shape test before their duplicate test. -/

namespace Sys2Proof.Machine

/-! ## The two ends of a DATA record (R136) -/

theorem exec_data_of_stored {o : Half} {p : List Byte} {s : State} (h : (storeFrom s.baseAddress o 0 p s.mem).2 = true) :
    exec (.data o p) s = .next (((s.setMem (storeFrom s.baseAddress o 0 p s.mem).1).setBaseAddress
      (advanceBase s.baseAddress p.length)).setResult .ok) := by
  obtain ⟨t, ht⟩ := exec_next (.data o p) s
  rcases execData_cases ht with ⟨-, rfl⟩ | ⟨hcollided, -⟩
  · exact ht
  · simp [h] at hcollided

theorem exec_data_of_collided {o : Half} {p : List Byte} {s : State}
    (h : (storeFrom s.baseAddress o 0 p s.mem).2 = false) :
    exec (.data o p) s =
      .next ((s.setMem (storeFrom s.baseAddress o 0 p s.mem).1).setResult (.err .addressOverlap)) := by
  obtain ⟨t, ht⟩ := exec_next (.data o p) s
  rcases execData_cases ht with ⟨hstored, -⟩ | ⟨-, rfl⟩
  · simp [h] at hstored
  · exact ht

/-- Settles O25: with every target free the loop stores the whole payload, and reads of other addresses pass it by. -/
theorem dataStoresItsPayload : Obligations.DataStoresItsPayload := by
  intro off payload s hlen hfree
  obtain ⟨hstored, hbytes⟩ := storeFrom_free s.baseAddress off payload 0 s.mem (by omega) (by simpa using hfree)
  refine ⟨_, exec_data_of_stored hstored, rfl, toNat_advanceBase s.baseAddress payload.length, ?_, ?_, rfl, rfl, rfl⟩
  · simpa using hbytes
  · intro a ha
    exact storeFrom_get_other s.baseAddress off payload 0 s.mem a (by simpa using ha)

/-- Settles O26: the loop stops at the lowest populated target, and a collision writes the image only. -/
theorem dataOverlapKeepsThePrefix : Obligations.DataOverlapKeepsThePrefix := by
  intro off payload s k w hlen hk hfree hw
  obtain ⟨hcollided, hprefix, hother⟩ := storeFrom_overlap s.baseAddress off payload 0 s.mem k w (by omega) hk
    (by simpa using hfree) (by simpa using hw)
  refine ⟨_, exec_data_of_collided hcollided, rfl, ?_, ?_, rfl, rfl, rfl, rfl⟩
  · simpa using hprefix
  · simpa using hother

/-! ## The same DATA record again (R136, S2) -/

/-- A loop that stored its whole payload stored the first byte, and the later puts keep it. -/
theorem storeFrom_get_first {base : Word} {off : Half} {i : Nat} {b : Byte} {rest : List Byte} {m : Memory}
    (h : (storeFrom base off i (b :: rest) m).2 = true) :
    Memory.get (storeFrom base off i (b :: rest) m).1 (dataAddress base off i) = some b := by
  cases hg : Memory.get m (dataAddress base off i) with
  | some w => simp [storeFrom_cons_overlap base off i b rest m w hg] at h
  | none =>
    rw [storeFrom_cons_free base off i b rest m hg]
    exact storeFrom_keeps_bytes base off rest (i + 1) _ _ b (Memory.get_insert_same m _ b hg)

/-- A DATA record whose first target is populated writes nothing but the result port. -/
theorem exec_data_of_first_populated {off : Half} {b w : Byte} {rest : List Byte} {s : State}
    (h : Memory.get s.mem (dataAddress s.baseAddress off 0) = some w) :
    exec (.data off (b :: rest)) s = .next (s.setResult (.err .addressOverlap)) := by
  have hstop : storeFrom s.baseAddress off 0 (b :: rest) s.mem = (s.mem, false) :=
    storeFrom_cons_overlap s.baseAddress off 0 b rest s.mem w h
  rw [exec_data_of_collided (by rw [hstop]), hstop]
  rfl

/-- Settles O27: the first run populated the address of byte 0, and the second run, whose base has the same high half,
tries that address first. -/
theorem repeatedDataRecordOverlaps : Obligations.RepeatedDataRecordOverlaps := by
  intro off payload s t hne h hok hhigh
  cases payload with
  | nil => exact absurd rfl hne
  | cons b rest =>
    have haddr : dataAddress t.baseAddress off 0 = dataAddress s.baseAddress off 0 := dataAddress_congr hhigh off 0
    have hpopulated : Memory.get t.mem (dataAddress s.baseAddress off 0) = some b := by
      rcases execData_cases h with ⟨hstored, rfl⟩ | ⟨-, rfl⟩
      · exact storeFrom_get_first hstored
      · simp at hok
    exact exec_data_of_first_populated (haddr ▸ hpopulated)

/-! ## EOF (R137) -/

theorem exec_eof_of_misshapen {o : Half} {p : List Byte} (hshape : isEofTerminator o p = false) (s : State) :
    exec (.eof o p) s = .next (s.setResult (.err .invalidEndOfFileRecord)) := by
  simp [exec, execEof, hshape, raiseError]

/-- Settles O29: the three ends of the record, by its shape and the flag. -/
theorem eofSetsTheFlagOnce : Obligations.EofSetsTheFlagOnce := by
  have hshape : isEofTerminator 0 [] = true := (isEofTerminator_iff 0 []).mpr ⟨rfl, rfl⟩
  refine ⟨fun o p => ?_, fun o p s hne => ?_, fun s hset => exec_eof_of_set hshape hset,
    fun s hclear => exec_eof_of_clear hshape hclear⟩
  · rw [← isEofTerminator_iff o p, isEofTerminator, beq_iff_eq, eofTerminator]
  · exact exec_eof_of_misshapen (Bool.eq_false_iff.mpr fun h => hne ((isEofTerminator_iff o p).mp h)) s

/-! ## SSA and SLA (R139, R140, R186) -/

/-- A second start address of either variant is refused. -/
theorem setStartOnce_of_set {s : State} (h : s.startAddress ≠ .absent) (a : StartAddress) :
    setStartOnce a s = .next (s.setResult (.err .duplicateStartAddressRecord)) := by
  rw [setStartOnce, if_pos ((startIsSet_iff s).mpr h), raiseError]

/-- The first start address is taken. -/
theorem setStartOnce_of_absent {s : State} (h : s.startAddress = .absent) (a : StartAddress) :
    setStartOnce a s = .next ((s.setStartAddress a).setResult .ok) := by
  rw [setStartOnce, if_neg fun hset => (startIsSet_iff s).mp hset h, returnOk]

/-- An SSA record of the right length is the setting of its two big-endian halves. -/
theorem exec_ssa_quad (o : Half) (a b c d : Byte) (s : State) :
    exec (.ssa o [a, b, c, d]) s = setStartOnce (.segmentCsIp (a ++ b) (c ++ d)) s := rfl

/-- An SLA record of the right length is the setting of its big-endian word. -/
theorem exec_sla_quad (o : Half) (a b c d : Byte) (s : State) :
    exec (.sla o [a, b, c, d]) s = setStartOnce (.linear (a ++ b ++ (c ++ d))) s := rfl

theorem exec_ssa_of_length_ne {p : List Byte} (h : p.length ≠ 4) (o : Half) (s : State) :
    exec (.ssa o p) s = .next (s.setResult (.err .badStartSegmentAddressRecord)) := by
  simp only [exec, execSsa, operandCsIp_none h, raiseError]

theorem exec_sla_of_length_ne {p : List Byte} (h : p.length ≠ 4) (o : Half) (s : State) :
    exec (.sla o p) s = .next (s.setResult (.err .badStartLinearAddressRecord)) := by
  simp only [exec, execSla, operandEip_none h, raiseError]

/-- Settles O35: a record of four bytes does what setting a start address does; `cs` and `ip` are its two pairs. -/
theorem ssaRecordsTheFirstStart : Obligations.SsaRecordsTheFirstStart := by
  refine ⟨fun o p s h => exec_ssa_of_length_ne h o s, fun o p s h hset => ?_, fun o a b c d s habs => ?_⟩
  · obtain ⟨a, b, c, d, rfl⟩ := quad_of_length h
    rw [exec_ssa_quad]
    exact setStartOnce_of_set hset _
  · refine ⟨a ++ b, c ++ d, toNat_append_byte a b, toNat_append_byte c d, ?_⟩
    rw [exec_ssa_quad]
    exact setStartOnce_of_absent habs _

/-- Settles O36: a record of four bytes does what setting a start address does; `eip` is the four bytes together. -/
theorem slaRecordsTheFirstStart : Obligations.SlaRecordsTheFirstStart := by
  refine ⟨fun o p s h => exec_sla_of_length_ne h o s, fun o p s h hset => ?_, fun o a b c d s habs => ?_⟩
  · obtain ⟨a, b, c, d, rfl⟩ := quad_of_length h
    rw [exec_sla_quad]
    exact setStartOnce_of_set hset _
  · refine ⟨a ++ b ++ (c ++ d), toNat_append_bytes a b c d, ?_⟩
    rw [exec_sla_quad]
    exact setStartOnce_of_absent habs _

end Sys2Proof.Machine
end

section
/-! The line processor (45_process_line.md): a step as the meaning of its line, that every step ends with a result, that
no meaning reads the result port, and the address machine's port as what the records do. -/

namespace Sys2Proof.Machine

/-! ## The result port is written by every line and read by none (R161, R165) -/

/-- Every meaning drives the result port. -/
theorem exec_result_ne_none {i : Instr} {s t : State} (h : exec i s = .next t) : t.result ≠ none := by
  rcases exec_cases h with ⟨_, _, rfl⟩ | ⟨_, _, _, _, rfl⟩ | ⟨_, _, _, _, rfl⟩ | ⟨_, _, _, _, rfl⟩ | ⟨_, _, _, _, rfl⟩ |
    ⟨_, _, _, _, _, rfl⟩ <;> exact Option.some_ne_none _

theorem processLine_result_ne_none {line : Line} {s t : State} (h : processLine line s = .next t) : t.result ≠ none := by
  rcases processLine_cases h with ⟨_, _, rfl⟩ | ⟨_, _, hi⟩
  · exact Option.some_ne_none _
  · exact exec_result_ne_none hi

/-- No meaning reads the result port: each tests and writes other elements, and its end overwrites the port. -/
theorem exec_result_irrel (i : Instr) (s : State) (r : Option StepResult) : exec i { s with result := r } = exec i s := by
  cases i with
  | data => rfl
  | eof => rfl
  | esa => rfl
  | ssa => rfl
  | ela => rfl
  | sla => rfl

theorem processLine_result_irrel (line : Line) (s : State) (r : Option StepResult) :
    processLine line { s with result := r } = processLine line s := by
  cases hd : decodeLine line with
  | error k => rw [processLine_error hd, processLine_error hd]; rfl
  | ok i => rw [processLine_ok hd, processLine_ok hd, exec_result_irrel]

/-- Without a line there is no step (log entry 4). -/
theorem step_nil {s : State} (h : s.lines = []) : step s = .refused .noLine := by rw [step, h]

theorem step_result_irrel (s : State) (r : Option StepResult) : step { s with result := r } = step s := by
  have hlines : { s with result := r }.lines = s.lines := rfl
  by_cases hnil : s.lines = []
  · exact (step_nil (hlines.trans hnil)).trans (step_nil hnil).symm
  · obtain ⟨line, rest, hl⟩ := List.exists_cons_of_ne_nil hnil
    calc step { s with result := r }
      _ = processLine line { s.setLines rest with result := r } := step_cons (hlines.trans hl)
      _ = processLine line (s.setLines rest) := processLine_result_irrel line (s.setLines rest) r
      _ = step s := (step_cons hl).symm

/-! ## An error writes the result port alone, a collision apart (R165, R192) -/

theorem exec_eq_setResult_of_err {i : Instr} {s t : State} {k : ErrKind} (h : exec i s = .next t)
    (hk : t.result = some (.err k)) (hne : k ≠ .addressOverlap) : t = s.setResult (.err k) := by
  rcases exec_cases h with ⟨_, _, rfl⟩ | ⟨_, _, _, _, rfl⟩ | ⟨_, _, _, _, rfl⟩ | ⟨_, _, _, _, rfl⟩ | ⟨_, _, _, _, rfl⟩ |
    ⟨_, _, _, _, _, rfl⟩
  · cases hk; rfl
  · cases hk; exact absurd rfl hne
  · cases hk
  · cases hk
  · cases hk
  · cases hk

theorem processLine_eq_setResult_of_err {line : Line} {s t : State} {k : ErrKind} (h : processLine line s = .next t)
    (hk : t.result = some (.err k)) (hne : k ≠ .addressOverlap) : t = s.setResult (.err k) := by
  rcases processLine_cases h with ⟨_, _, rfl⟩ | ⟨_, _, hi⟩
  · cases hk; rfl
  · exact exec_eq_setResult_of_err hi hk hne

/-- Settles O50: the failed line wrote the result port only, which the next line does not read. -/
theorem resultPortAndErrorsLeaveNoTrace : Obligations.ResultPortAndErrorsLeaveNoTrace := by
  refine ⟨step_result_irrel, fun l₁ l₂ s t k h hk hne => ?_⟩
  rw [processLine_eq_setResult_of_err h hk hne]
  exact processLine_result_irrel l₂ s (some (.err k))

/-! ## A step with a line, and one without (R160, R161, R162) -/

/-- Settles O47: `processLine` answers next with a result, and leaves the queue as the step made it. -/
theorem everyStepWithALineCompletes : Obligations.EveryStepWithALineCompletes := by
  refine fun s => ⟨fun line rest hl => ?_, step_nil⟩
  obtain ⟨t, ht⟩ := processLine_next line (s.setLines rest)
  exact ⟨t, (step_cons hl).trans ht, processLine_keeps_lines ht, processLine_result_ne_none ht⟩

/-- Settles O46: the two cases of `processLine` on the state less its line. -/
theorem stepRunsTheDecodedInstruction : Obligations.StepRunsTheDecodedInstruction := fun s _ rest hl =>
  ⟨fun _ hd => (step_cons hl).trans (processLine_ok hd (s.setLines rest)),
    fun _ hd => (step_cons hl).trans (processLine_error hd (s.setLines rest))⟩

/-! ## The address machine's port (R164) -/

/-- Settles O34: what each record leaves in the base is its command's next base; the count of a payload of at most 255
bytes fits the port's byte. -/
theorem addressPortIsWhatTheRecordsDo : Obligations.AddressPortIsWhatTheRecordsDo := by
  refine ⟨fun o a b s t h => ?_, fun o a b s t h => ?_, fun o p s t hlen h hok => ?_⟩
  · cases (exec_esa_pair o a b s).symm.trans h
    rfl
  · cases (exec_ela_pair o a b s).symm.trans h
    rfl
  · have hended : t.endedOk = true := by rw [State.endedOk, hok]; rfl
    rw [exec_data_baseAddress_of_endedOk h hended, baseAfterCommand, lengthByte_toNat hlen]

end Sys2Proof.Machine
end

section
/-! The errors of the record processors and of the checks before the dispatch (60_exceptions.md): which instruction is
rejected with which kind and in which states, and that no kind is raised on both sides of the dispatch. -/

namespace Sys2Proof.Machine

/-! ## The rejections of the six meanings (R180 to R187) -/

/-- The meaning of the instruction ends in the error kind: one constructor for each test of R136 to R140 that can
fail. -/
inductive Rejects : Instr → State → ErrKind → Prop
  | eofShape {o : Half} {p : List Byte} {s : State} (hshape : recordOf (.eof o p) ≠ eofTerminator) :
      Rejects (.eof o p) s .invalidEndOfFileRecord
  | eofTwice {s : State} (hset : s.eofFlag = true) : Rejects (.eof 0 []) s .duplicateEndOfFileRecord
  | esaShape {o : Half} {p : List Byte} {s : State} (hshape : p.length ≠ 2) :
      Rejects (.esa o p) s .badExtendedSegmentAddressRecord
  | elaShape {o : Half} {p : List Byte} {s : State} (hshape : p.length ≠ 2) :
      Rejects (.ela o p) s .badExtendedLinearAddressRecord
  | ssaShape {o : Half} {p : List Byte} {s : State} (hshape : p.length ≠ 4) :
      Rejects (.ssa o p) s .badStartSegmentAddressRecord
  | slaShape {o : Half} {p : List Byte} {s : State} (hshape : p.length ≠ 4) :
      Rejects (.sla o p) s .badStartLinearAddressRecord
  | ssaTwice {o : Half} {p : List Byte} {s : State} (hshape : p.length = 4) (hset : s.startAddress ≠ .absent) :
      Rejects (.ssa o p) s .duplicateStartAddressRecord
  | slaTwice {o : Half} {p : List Byte} {s : State} (hshape : p.length = 4) (hset : s.startAddress ≠ .absent) :
      Rejects (.sla o p) s .duplicateStartAddressRecord
  | overlap {o : Half} {p : List Byte} {s : State} (hcollided : (storeFrom s.baseAddress o 0 p s.mem).2 = false) :
      Rejects (.data o p) s .addressOverlap

theorem isEofTerminator_eq_false_iff {o : Half} {p : List Byte} :
    isEofTerminator o p = false ↔ recordOf (.eof o p) ≠ eofTerminator := beq_eq_false_iff_ne

/-- The one error of setting the start address (R186). -/
theorem setStartOnce_err {a : StartAddress} {s t : State} {k : ErrKind} (h : setStartOnce a s = .next t)
    (hk : t.result = some (.err k)) : s.startAddress ≠ .absent ∧ k = .duplicateStartAddressRecord := by
  rcases setStartOnce_cases h with ⟨hset, rfl⟩ | ⟨-, rfl⟩
  · cases hk; exact ⟨hset, rfl⟩
  · cases hk

/-- An error of a meaning is a rejection. -/
theorem rejects_of_exec_err {i : Instr} {s t : State} {k : ErrKind} (h : exec i s = .next t)
    (hk : t.result = some (.err k)) : Rejects i s k := by
  cases i with
  | data o p =>
    rcases execData_cases h with ⟨-, rfl⟩ | ⟨hcollided, rfl⟩
    · cases hk
    · cases hk; exact .overlap hcollided
  | eof o p =>
    rcases execEof_cases h with ⟨hshape, rfl⟩ | ⟨hshape, hset, rfl⟩ | ⟨-, -, rfl⟩
    · cases hk; exact .eofShape (isEofTerminator_eq_false_iff.mp hshape)
    · cases hk
      obtain ⟨rfl, rfl⟩ := (isEofTerminator_iff o p).mp hshape
      exact .eofTwice hset
    · cases hk
  | esa o p =>
    rcases execEsa_cases h with ⟨hshape, rfl⟩ | ⟨_, _, -, rfl⟩
    · cases hk; exact .esaShape hshape
    · cases hk
  | ela o p =>
    rcases execEla_cases h with ⟨hshape, rfl⟩ | ⟨_, _, -, rfl⟩
    · cases hk; exact .elaShape hshape
    · cases hk
  | ssa o p =>
    rcases execSsa_cases h with ⟨hshape, rfl⟩ | ⟨_, _, _, _, rfl, hstart⟩
    · cases hk; exact .ssaShape hshape
    · obtain ⟨hset, rfl⟩ := setStartOnce_err hstart hk
      exact .ssaTwice rfl hset
  | sla o p =>
    rcases execSla_cases h with ⟨hshape, rfl⟩ | ⟨_, _, _, _, rfl, hstart⟩
    · cases hk; exact .slaShape hshape
    · obtain ⟨hset, rfl⟩ := setStartOnce_err hstart hk
      exact .slaTwice rfl hset

/-- A rejected instruction ends in its error. -/
theorem exec_err_of_rejects {i : Instr} {s : State} {k : ErrKind} (hr : Rejects i s k) :
    ∃ t, exec i s = .next t ∧ t.result = some (.err k) := by
  cases hr with
  | eofShape hshape => exact ⟨_, exec_eof_of_misshapen (isEofTerminator_eq_false_iff.mpr hshape) s, rfl⟩
  | eofTwice hset => exact ⟨_, exec_eof_of_set ((isEofTerminator_iff 0 []).mpr ⟨rfl, rfl⟩) hset, rfl⟩
  | esaShape hshape => exact ⟨_, exec_esa_of_length_ne hshape _ s, rfl⟩
  | elaShape hshape => exact ⟨_, exec_ela_of_length_ne hshape _ s, rfl⟩
  | ssaShape hshape => exact ⟨_, exec_ssa_of_length_ne hshape _ s, rfl⟩
  | slaShape hshape => exact ⟨_, exec_sla_of_length_ne hshape _ s, rfl⟩
  | ssaTwice hshape hset =>
    obtain ⟨a, b, c, d, rfl⟩ := quad_of_length hshape
    exact ⟨_, (exec_ssa_quad _ a b c d s).trans (setStartOnce_of_set hset _), rfl⟩
  | slaTwice hshape hset =>
    obtain ⟨a, b, c, d, rfl⟩ := quad_of_length hshape
    exact ⟨_, (exec_sla_quad _ a b c d s).trans (setStartOnce_of_set hset _), rfl⟩
  | overlap hcollided => exact ⟨_, exec_data_of_collided hcollided, rfl⟩

theorem exec_err_iff {i : Instr} {s t : State} {k : ErrKind} (h : exec i s = .next t) :
    t.result = some (.err k) ↔ Rejects i s k := by
  refine ⟨rejects_of_exec_err h, fun hr => ?_⟩
  obtain ⟨u, hu, hk⟩ := exec_err_of_rejects hr
  cases hu.symm.trans h
  exact hk

/-- The kinds of the processors stand behind all others in the order of checks (R189). -/
theorem eight_le_priority_of_rejects {i : Instr} {s : State} {k : ErrKind} (hr : Rejects i s k) : 8 ≤ priority k := by
  cases hr <;> decide

/-! ## The errors before the dispatch (R176 to R179) -/

/-- A record has an instruction or a structural error, and never the decoder's last arm (log entry 26). -/
theorem decodeRecord_error_iff {rec : Record} {k : ErrKind} :
    decodeRecord rec = .error k ↔ validateStructure rec = .error k := by
  cases hv : validateStructure rec with
  | error k' => simp [decodeRecord, hv]
  | ok u =>
    obtain ⟨n, ty, hn, hsize, hty, hsum⟩ := (validateStructure_ok_iff rec).mp hv
    obtain ⟨off, hoff⟩ : ∃ off, recOffset rec = some off :=
      Option.ne_none_iff_exists'.mp fun hnone => by have := be16_eq_none_iff.mp hnone; omega
    simp [decodeRecord, hv, hty, hoff, recPayload_of_size hn hsize]

/-- An error before the dispatch is the validator's, or the structural error of the record the line spells (R160). -/
theorem decodeLine_error_iff {line : Line} {k : ErrKind} : decodeLine line = .error k ↔
    validateLine line = .error k ∨ ∃ rec, bytesFromHexRun line = some rec ∧ validateStructure rec = .error k := by
  cases hv : validateLine line with
  | error k' => simp [decodeLine, bytesFromHexRun, hv]
  | ok u =>
    obtain ⟨rec, hrun⟩ := bytesFromHexRun_total hv
    simp [decodeLine_of_run hrun, hrun, decodeRecord_error_iff]

theorem five_le_length_of_run {line : Line} {rec : Record} (h : bytesFromHexRun line = some rec) : 5 ≤ rec.length := by
  obtain ⟨hvalid, -⟩ := bytesFromHexRun_eq_some h
  obtain ⟨_, hrun, -, hfive, -⟩ := validatedLineDecodesPairByPair line hvalid
  cases hrun.symm.trans h
  exact hfive

/-- A record read from a line has a length byte. -/
theorem exists_lengthByte_of_run {line : Line} {rec : Record} (h : bytesFromHexRun line = some rec) :
    ∃ n, rec[0]? = some n :=
  ⟨_, List.getElem?_eq_getElem (Nat.lt_of_lt_of_le (by decide) (five_le_length_of_run h))⟩

theorem decodeLine_malformed_iff {line : Line} {sub : MalformedSubkind} :
    decodeLine line = .error (.malformedLine sub) ↔ validateLine line = .error (.malformedLine sub) := by
  refine decodeLine_error_iff.trans (or_iff_left ?_)
  rintro ⟨rec, -, hstructure⟩
  rcases validateStructure_error hstructure with hk | hk | hk <;> cases hk

/-- A structural kind is the error of a well-formed line whose record fails the check that names the kind. -/
theorem decodeLine_structural_iff {line : Line} {k : ErrKind} {check : Record → Byte → Prop}
    (hk : ∀ sub, k ≠ .malformedLine sub)
    (hcheck : ∀ rec n, rec[0]? = some n → (validateStructure rec = .error k ↔ check rec n)) :
    decodeLine line = .error k ↔ validateLine line = .ok () ∧
      ∃ rec n, bytesFromHexRun line = some rec ∧ rec[0]? = some n ∧ check rec n := by
  rw [decodeLine_error_iff]
  constructor
  · rintro (hline | ⟨rec, hrun, hstructure⟩)
    · obtain ⟨sub, rfl⟩ := validateLine_error hline
      exact absurd rfl (hk sub)
    · obtain ⟨n, hn⟩ := exists_lengthByte_of_run hrun
      exact ⟨(bytesFromHexRun_eq_some hrun).1, rec, n, hrun, hn, (hcheck rec n hn).mp hstructure⟩
  · rintro ⟨-, rec, n, hrun, hn, hfails⟩
    exact .inr ⟨rec, hrun, (hcheck rec n hn).mpr hfails⟩

theorem priority_malformedLine_le (sub : MalformedSubkind) : priority (.malformedLine sub) ≤ 7 := by
  cases sub <;> decide

/-- The kinds raised before the dispatch stand before those of the processors in the order of checks (R189). -/
theorem priority_le_seven_of_decodeLine_error {line : Line} {k : ErrKind} (h : decodeLine line = .error k) :
    priority k ≤ 7 := by
  rcases decodeLine_error_iff.mp h with hline | ⟨rec, -, hstructure⟩
  · obtain ⟨sub, rfl⟩ := validateLine_error hline
    exact priority_malformedLine_le sub
  · rcases validateStructure_error hstructure with rfl | rfl | rfl <;> decide

/-! ## The error of a line -/

theorem processLine_err_iff {line : Line} {s t : State} {k : ErrKind} (h : processLine line s = .next t) :
    t.result = some (.err k) ↔ decodeLine line = .error k ∨ ∃ i, decodeLine line = .ok i ∧ Rejects i s k := by
  rcases processLine_cases h with ⟨k', hd, rfl⟩ | ⟨i, hd, hi⟩
  · simp [hd]
  · simp [hd, exec_err_iff hi]

/-- A kind of places 1 to 7 is reported for a line that does not decode. -/
theorem processLine_err_iff_decode {line : Line} {s t : State} {k : ErrKind} (h : processLine line s = .next t)
    (hk : priority k ≤ 7) : t.result = some (.err k) ↔ decodeLine line = .error k := by
  refine (processLine_err_iff h).trans (or_iff_left ?_)
  rintro ⟨i, -, hr⟩
  have := eight_le_priority_of_rejects hr
  omega

/-- A kind of places 8 and 9 is reported for a line that decodes to a rejected instruction. -/
theorem processLine_err_iff_rejects {line : Line} {s t : State} {k : ErrKind} (h : processLine line s = .next t)
    (hk : 8 ≤ priority k) : t.result = some (.err k) ↔ ∃ i, decodeLine line = .ok i ∧ Rejects i s k := by
  refine (processLine_err_iff h).trans (or_iff_right fun hd => ?_)
  have := priority_le_seven_of_decodeLine_error hd
  omega

/-- Settles O39: each shape error has one way to reject, which is its clause. -/
theorem shapeErrorsComeFromTheirProcessor : Obligations.ShapeErrorsComeFromTheirProcessor := by
  intro line s t h
  have report {k : ErrKind} (hk : 8 ≤ priority k) := processLine_err_iff_rejects h hk
  refine ⟨(report (by decide)).trans ?_, (report (by decide)).trans ?_, (report (by decide)).trans ?_,
    (report (by decide)).trans ?_, (report (by decide)).trans ?_,
    fun k hmem hk => processLine_eq_setResult_of_err h hk (ne_of_mem_of_not_mem hmem (by decide))⟩
  · exact ⟨fun ⟨_, hd, .eofShape hp⟩ => ⟨_, _, hd, hp⟩, fun ⟨_, _, hd, hp⟩ => ⟨_, hd, .eofShape hp⟩⟩
  · exact ⟨fun ⟨_, hd, .esaShape hp⟩ => ⟨_, _, hd, hp⟩, fun ⟨_, _, hd, hp⟩ => ⟨_, hd, .esaShape hp⟩⟩
  · exact ⟨fun ⟨_, hd, .elaShape hp⟩ => ⟨_, _, hd, hp⟩, fun ⟨_, _, hd, hp⟩ => ⟨_, hd, .elaShape hp⟩⟩
  · exact ⟨fun ⟨_, hd, .ssaShape hp⟩ => ⟨_, _, hd, hp⟩, fun ⟨_, _, hd, hp⟩ => ⟨_, hd, .ssaShape hp⟩⟩
  · exact ⟨fun ⟨_, hd, .slaShape hp⟩ => ⟨_, _, hd, hp⟩, fun ⟨_, _, hd, hp⟩ => ⟨_, hd, .slaShape hp⟩⟩

/-- Settles O40: a duplicate EOF has one way to be rejected, a duplicate start address one for each of SSA and SLA. -/
theorem duplicateErrorsComeFromTheirProcessor : Obligations.DuplicateErrorsComeFromTheirProcessor := by
  intro line s t h
  refine ⟨(processLine_err_iff_rejects h (by decide)).trans ?_, (processLine_err_iff_rejects h (by decide)).trans ?_,
    fun k hmem hk => processLine_eq_setResult_of_err h hk (ne_of_mem_of_not_mem hmem (by decide))⟩
  · exact ⟨fun ⟨_, hd, .eofTwice hset⟩ => ⟨hd, hset⟩, fun ⟨hd, hset⟩ => ⟨_, hd, .eofTwice hset⟩⟩
  · constructor
    · rintro ⟨i, hd, hr⟩
      cases hr with
      | ssaTwice hp hset => exact ⟨hset, _, _, .inl hd, hp⟩
      | slaTwice hp hset => exact ⟨hset, _, _, .inr hd, hp⟩
    · rintro ⟨hset, o, p, hd | hd, hp⟩
      · exact ⟨_, hd, .ssaTwice hp hset⟩
      · exact ⟨_, hd, .slaTwice hp hset⟩

/-- Settles O41: a malformed line is the validator's error, and the other three kinds are those of the structure checks
on the record of a well-formed line. -/
theorem decodeErrorsComeFromTheirCheck : Obligations.DecodeErrorsComeFromTheirCheck := by
  intro line s t h
  refine ⟨fun sub => (processLine_err_iff_decode h (priority_malformedLine_le sub)).trans decodeLine_malformed_iff,
    (processLine_err_iff_decode h (by decide)).trans (decodeLine_structural_iff (by simp) fun rec n hn => ?_),
    (processLine_err_iff_decode h (by decide)).trans (decodeLine_structural_iff (by simp) fun rec n hn => ?_),
    (processLine_err_iff_decode h (by decide)).trans (decodeLine_structural_iff (by simp) fun rec n hn => ?_),
    fun k hd => ?_⟩
  · obtain ⟨hsize, -⟩ := structureChecksRunInOrder rec n hn
    exact hsize
  · obtain ⟨-, htype, -⟩ := structureChecksRunInOrder rec n hn
    exact htype
  · obtain ⟨-, -, hsum, -⟩ := structureChecksRunInOrder rec n hn
    exact hsum
  · cases (processLine_error hd s).symm.trans h
    rfl

/-- Settles O42: an error other than a collision writes the result port alone; a collision is a DATA record's, which
keeps every populated byte. -/
theorem overlapIsTheOnlyPartialError : Obligations.OverlapIsTheOnlyPartialError := by
  intro s t k h hk
  obtain ⟨line, rest, hlines, hp⟩ := step_cases h
  constructor
  · intro hne
    rw [hlines]
    exact processLine_eq_setResult_of_err hp hk hne
  · rintro rfl
    have hkeeps : KeepsBytes (s.setLines rest) t := processLine_keepsBytes hp
    obtain ⟨i, hd, hr⟩ := (processLine_err_iff_rejects hp (by decide)).mp hk
    cases hr with
    | @overlap o p _ hcollided =>
      have hhead : s.lines.head? = some line := by rw [hlines, List.head?_cons]
      cases (exec_data_of_collided hcollided).symm.trans ((processLine_ok hd _).symm.trans hp)
      exact ⟨rfl, rfl, rfl, hkeeps, line, o, p, hhead, hd⟩

end Sys2Proof.Machine
end

section
/-! The order of the checks (R189): the causes of R175's table, read from characters, bytes and state, against the error
a line reports. A line that does not decode reports the cause of the check it fails, all checks before it having passed;
a line that decodes has a cause exactly when its instruction is rejected, and then only one. -/

namespace Sys2Proof.Machine

/-! ## Places in the order (R189) -/

/-- The one kind at each of the places 1 to 7; the places behind them are shared by several kinds. -/
def kindAtPlace : Nat → ErrKind
  | 1 => .malformedLine .missingMarker
  | 2 => .malformedLine .badLengthParity
  | 3 => .malformedLine .tooShort
  | 4 => .malformedLine .invalidCharacter
  | 5 => .recordLengthMismatch
  | 6 => .unknownRecordType
  | _ => .checksumMismatch

theorem kindAtPlace_priority {k : ErrKind} (h : priority k ≤ 7) : kindAtPlace (priority k) = k := by
  cases k with
  | malformedLine sub => cases sub <;> rfl
  | recordLengthMismatch => rfl
  | unknownRecordType => rfl
  | checksumMismatch => rfl
  | _ => exact absurd h (by decide)

theorem eq_of_priority_eq {k k' : ErrKind} (h : priority k = priority k') (hk : priority k ≤ 7) : k = k' := by
  rw [← kindAtPlace_priority hk, h, kindAtPlace_priority (h ▸ hk)]

/-- Every cause there is stands at the place `p` or behind it. -/
def NoCauseBefore (p : Nat) (line : Line) (s : State) : Prop := ∀ k, Cause line s k → p ≤ priority k

/-- A check that passes moves the bound behind its place. -/
theorem NoCauseBefore.succ {line : Line} {s : State} {k : ErrKind} (h : NoCauseBefore (priority k) line s)
    (hk : priority k ≤ 7) (hpass : ¬ Cause line s k) : NoCauseBefore (priority k + 1) line s := fun k' hk' =>
  Nat.lt_of_le_of_ne (h k' hk') fun e => hpass (eq_of_priority_eq e hk ▸ hk')

theorem noCauseBefore_one (line : Line) (s : State) : NoCauseBefore 1 line s := fun k _ => by
  cases k with
  | malformedLine sub => cases sub <;> decide
  | _ => decide

/-! ## Causes of a malformed line (R176) -/

theorem noCauseBefore_two {line : Line} (s : State) (hmarker : line.head? = some markerChar) :
    NoCauseBefore 2 line s :=
  (noCauseBefore_one line s).succ (k := .malformedLine .missingMarker) (by decide) (not_not_intro hmarker)

theorem noCauseBefore_three {line : Line} (s : State) (hmarker : line.head? = some markerChar)
    (hodd : line.length % 2 = 1) : NoCauseBefore 3 line s :=
  (noCauseBefore_two s hmarker).succ (k := .malformedLine .badLengthParity) (by decide) (Nat.mod_two_ne_zero.mpr hodd)

theorem noCauseBefore_four {line : Line} (s : State) (hmarker : line.head? = some markerChar)
    (hodd : line.length % 2 = 1) (hlong : 11 ≤ line.length) : NoCauseBefore 4 line s :=
  (noCauseBefore_three s hmarker hodd).succ (k := .malformedLine .tooShort) (by decide) (Nat.not_lt.mpr hlong)

/-- A well-formed line has no cause of a malformed one. -/
theorem noCauseBefore_five {line : Line} (s : State) (hvalid : validateLine line = .ok ()) : NoCauseBefore 5 line s := by
  obtain ⟨-, -, -, -, hok⟩ := validatorReportsTheFirstFailingCheck line
  obtain ⟨hmarker, hodd, hlong, hhex⟩ := hok.mp hvalid
  exact (noCauseBefore_four s hmarker hodd hlong).succ (k := .malformedLine .invalidCharacter) (by decide)
    (forall_isHexDigit_iff.mp hhex)

/-- The validator's error has its cause, and no check before it fails. -/
theorem cause_of_validateLine_error {line : Line} {sub : MalformedSubkind} (s : State)
    (h : validateLine line = .error (.malformedLine sub)) :
    Cause line s (.malformedLine sub) ∧ NoCauseBefore (priority (.malformedLine sub)) line s := by
  obtain ⟨hmissing, hparity, hshort, hinvalid, -⟩ := validatorReportsTheFirstFailingCheck line
  cases sub with
  | missingMarker => exact ⟨hmissing.mp h, noCauseBefore_one line s⟩
  | badLengthParity =>
    obtain ⟨hmarker, heven⟩ := hparity.mp h
    exact ⟨heven, noCauseBefore_two s hmarker⟩
  | tooShort =>
    obtain ⟨hmarker, hodd, hlt⟩ := hshort.mp h
    exact ⟨hlt, noCauseBefore_three s hmarker hodd⟩
  | invalidCharacter =>
    obtain ⟨hmarker, hodd, hlong, hbad⟩ := hinvalid.mp h
    exact ⟨hbad, noCauseBefore_four s hmarker hodd hlong⟩

/-! ## Causes in the structure of the record (R177 to R179) -/

theorem spells_of_run {line : Line} {rec : Record} (h : bytesFromHexRun line = some rec) : Spells line rec :=
  (bytesFromHexRun_eq_some h).2

/-- A line spells one record. -/
theorem spells_iff {line : Line} {rec rec' : Record} (h : Spells line rec) : Spells line rec' ↔ rec' = rec := by
  rw [Spells, show bytesFromPairs (line.drop 1) = some rec from h, Option.some.injEq, eq_comm]

theorem cause_recordLengthMismatch_iff {line : Line} {rec : Record} {n : Byte} (s : State) (h : Spells line rec)
    (hn : rec[0]? = some n) : Cause line s .recordLengthMismatch ↔ rec.length ≠ n.toNat + 5 := by
  simp [Cause, spells_iff h, hn]

theorem cause_unknownRecordType_iff {line : Line} {rec : Record} (s : State) (h : Spells line rec)
    (hlen : 5 ≤ rec.length) : Cause line s .unknownRecordType ↔ recType rec = none := by
  obtain ⟨code, hcode⟩ : ∃ code, rec[3]? = some code :=
    ⟨_, List.getElem?_eq_getElem (Nat.lt_of_lt_of_le (by decide) hlen)⟩
  simp [Cause, spells_iff h, hcode, recType, be8, recordTypeOf_eq_none_iff]

theorem cause_checksumMismatch_iff {line : Line} {rec : Record} (s : State) (h : Spells line rec) :
    Cause line s .checksumMismatch ↔ byteSum rec % 256 ≠ 0 := by
  simp [Cause, spells_iff h]

section
variable {line : Line} {rec : Record} {n : Byte} (s : State) (hrun : bytesFromHexRun line = some rec)
  (hn : rec[0]? = some n)
include hrun hn

theorem noCauseBefore_six (hsize : rec.length = n.toNat + 5) : NoCauseBefore 6 line s :=
  (noCauseBefore_five s (bytesFromHexRun_eq_some hrun).1).succ (k := .recordLengthMismatch) (by decide)
    fun hc => (cause_recordLengthMismatch_iff s (spells_of_run hrun) hn).mp hc hsize

theorem noCauseBefore_seven (hsize : rec.length = n.toNat + 5) (htype : recType rec ≠ none) : NoCauseBefore 7 line s :=
  (noCauseBefore_six s hrun hn hsize).succ (k := .unknownRecordType) (by decide)
    fun hc => htype ((cause_unknownRecordType_iff s (spells_of_run hrun) (five_le_length_of_run hrun)).mp hc)

/-- A record that passes the structure checks has no cause of places 1 to 7. -/
theorem noCauseBefore_eight (hvalid : validateStructure rec = .ok ()) : NoCauseBefore 8 line s := by
  obtain ⟨-, -, -, hok⟩ := structureChecksRunInOrder rec n hn
  obtain ⟨hsize, htype, hsum⟩ := hok.mp hvalid
  exact (noCauseBefore_seven s hrun hn hsize htype).succ (k := .checksumMismatch) (by decide)
    fun hc => (cause_checksumMismatch_iff s (spells_of_run hrun)).mp hc hsum

/-- A structural error has its cause, and no check before it fails. -/
theorem cause_of_validateStructure_error {k : ErrKind} (h : validateStructure rec = .error k) :
    Cause line s k ∧ NoCauseBefore (priority k) line s := by
  have hspells := spells_of_run hrun
  obtain ⟨hlength, hunknown, hchecksum, -⟩ := structureChecksRunInOrder rec n hn
  rcases validateStructure_error h with rfl | rfl | rfl
  · exact ⟨(cause_recordLengthMismatch_iff s hspells hn).mpr (hlength.mp h),
      noCauseBefore_five s (bytesFromHexRun_eq_some hrun).1⟩
  · obtain ⟨hsize, htype⟩ := hunknown.mp h
    exact ⟨(cause_unknownRecordType_iff s hspells (five_le_length_of_run hrun)).mpr htype,
      noCauseBefore_six s hrun hn hsize⟩
  · obtain ⟨hsize, htype, hsum⟩ := hchecksum.mp h
    exact ⟨(cause_checksumMismatch_iff s hspells).mpr hsum, noCauseBefore_seven s hrun hn hsize htype⟩

end

/-- The error of a line that does not decode has its cause, and no check before it fails. -/
theorem cause_of_decodeLine_error {line : Line} {k : ErrKind} (s : State) (h : decodeLine line = .error k) :
    Cause line s k ∧ NoCauseBefore (priority k) line s := by
  rcases decodeLine_error_iff.mp h with hline | ⟨rec, hrun, hstructure⟩
  · obtain ⟨sub, rfl⟩ := validateLine_error hline
    exact cause_of_validateLine_error s hline
  · obtain ⟨n, hn⟩ := exists_lengthByte_of_run hrun
    exact cause_of_validateStructure_error s hrun hn hstructure

/-! ## Causes of a line that decodes (R180 to R187) -/

/-- The loop of puts collides exactly when a target of the payload is populated: the bytes stored before do not stand in
its way, as the targets of one payload are distinct (R124). -/
theorem storeFrom_collided_iff {base : Word} {off : Half} {p : List Byte} {m : Memory} (hlen : p.length ≤ 255) :
    (storeFrom base off 0 p m).2 = false ↔ ∃ i v, i < p.length ∧ Memory.get m (dataAddress base off i) = some v := by
  constructor
  · intro hcollided
    by_contra hnone
    have hfree : ∀ i, i < p.length → Memory.get m (dataAddress base off (0 + i)) = none := fun i hi =>
      Option.eq_none_iff_forall_ne_some.mpr fun v hv => hnone ⟨i, v, hi, by simpa using hv⟩
    obtain ⟨hstored, -⟩ := storeFrom_free base off p 0 m (by omega) hfree
    simp [hcollided] at hstored
  · intro hpopulated
    obtain ⟨k, ⟨w, hk, hw⟩, hlowest⟩ := Nat.findX hpopulated
    have hfree : ∀ i, i < k → Memory.get m (dataAddress base off (0 + i)) = none := fun i hi =>
      Option.eq_none_iff_forall_ne_some.mpr fun v hv => hlowest i hi ⟨v, hi.trans hk, by simpa using hv⟩
    obtain ⟨hcollided, -⟩ := storeFrom_overlap base off p 0 m k w (by omega) hk hfree (by simpa using hw)
    exact hcollided

theorem recordOf_lengthByte_eq_some_iff {i : Instr} (h : i.wellFormed = true) {n : Byte} :
    (recordOf i)[0]? = some n ↔ i.payload.length = n.toNat := by
  rw [recordOf_eq, List.getElem?_cons_zero, Option.some.injEq, BitVec.toNat_eq,
    lengthByte_toNat ((wellFormed_iff i).mp h)]

theorem recordOf_typeByte_eq_some_iff {i : Instr} {t : RecordType} :
    (recordOf i)[3]? = some (recordTypeCode t) ↔ i.recordType = t := by
  rw [← recType_eq_some_iff]
  simp [recType, be8, recordOf_eq]

/-- A line that decodes spells the record of its instruction, and that one only. -/
theorem spells_iff_of_decodeLine {line : Line} {i : Instr} (hd : decodeLine line = .ok i) {rec : Record} :
    Spells line rec ↔ rec = recordOf i := by
  obtain ⟨-, rec', hrun, hrec⟩ := decodeLine_ok hd
  rw [spells_iff (spells_of_run hrun), eq_recordOf_of_decodeRecord hrec]

theorem wellFormed_of_decodeLine {line : Line} {i : Instr} (hd : decodeLine line = .ok i) : i.wellFormed = true :=
  (encodeOfDecodeIsTheLineInUpperCase line i hd).1

/-- A line that decodes has no cause of places 1 to 7. -/
theorem noCauseBefore_of_decodeLine {line : Line} {i : Instr} (s : State) (hd : decodeLine line = .ok i) :
    NoCauseBefore 8 line s := by
  obtain ⟨-, rec, hrun, hrec⟩ := decodeLine_ok hd
  obtain ⟨n, hn⟩ := exists_lengthByte_of_run hrun
  cases hv : validateStructure rec with
  | error k => cases (decodeRecord_error_iff.mpr hv).symm.trans hrec
  | ok _ => exact noCauseBefore_eight s hrun hn hv

/-- The type byte a line spells is that of the instruction it decodes to. -/
theorem exists_instrOf_of_typeByte {line : Line} {i : Instr} {rec : Record} {t : RecordType}
    (hd : decodeLine line = .ok i) (hs : Spells line rec) (ht : rec[3]? = some (recordTypeCode t)) :
    ∃ o p, i = instrOf t o p ∧ rec = recordOf i := by
  obtain rfl := (spells_iff_of_decodeLine hd).mp hs
  obtain rfl := recordOf_typeByte_eq_some_iff.mp ht
  exact ⟨i.offset, i.payload, (instrOf_fields i).symm, rfl⟩

/-- The cause of a shape error by length, with its type and length bytes open, is an instruction of that type with
another payload length. -/
theorem exists_misshapen_instrOf {line : Line} {i : Instr} {t : RecordType} {n : Byte} (hd : decodeLine line = .ok i)
    (hc : ∃ rec, Spells line rec ∧ rec[3]? = some (recordTypeCode t) ∧ rec[0]? ≠ some n) :
    ∃ o p, i = instrOf t o p ∧ p.length ≠ n.toNat := by
  obtain ⟨_, hs, ht, hn⟩ := hc
  obtain ⟨o, p, rfl, rfl⟩ := exists_instrOf_of_typeByte hd hs ht
  refine ⟨o, p, rfl, fun hlen => hn ?_⟩
  rw [recordOf_lengthByte_eq_some_iff (wellFormed_of_decodeLine hd), instrOf_payload, hlen]

theorem recOffset_recordOf (i : Instr) : recOffset (recordOf i) = some i.offset :=
  be16_eq_some_iff.mpr (by simp [recordOf_eq])

/-- A rejection of the decoded instruction has its cause in the line and the state. -/
theorem cause_of_rejects {line : Line} {i : Instr} {s : State} {k : ErrKind} (hd : decodeLine line = .ok i)
    (hr : Rejects i s k) : Cause line s k := by
  have hspells : Spells line (recordOf i) := (spells_iff_of_decodeLine hd).mpr rfl
  have hwf := wellFormed_of_decodeLine hd
  have hlength {n : Byte} : (recordOf i)[0]? = some n ↔ i.payload.length = n.toNat :=
    recordOf_lengthByte_eq_some_iff hwf
  have htype : (recordOf i)[3]? = some (recordTypeCode i.recordType) := recordOf_typeByte_eq_some_iff.mpr rfl
  cases hr with
  | eofShape hshape => exact ⟨_, hspells, htype, hshape⟩
  | eofTwice hset => exact ⟨hspells, hset⟩
  | esaShape hshape => exact ⟨_, hspells, htype, mt hlength.mp hshape⟩
  | elaShape hshape => exact ⟨_, hspells, htype, mt hlength.mp hshape⟩
  | ssaShape hshape => exact ⟨_, hspells, htype, mt hlength.mp hshape⟩
  | slaShape hshape => exact ⟨_, hspells, htype, mt hlength.mp hshape⟩
  | ssaTwice hshape hset =>
    exact ⟨_, hspells, .inl htype, hlength.mpr hshape, hset⟩
  | slaTwice hshape hset =>
    exact ⟨_, hspells, .inr htype, hlength.mpr hshape, hset⟩
  | @overlap o p _ hcollided =>
    have hlen := (wellFormed_iff _).mp hwf
    obtain ⟨j, v, hj, hv⟩ := (storeFrom_collided_iff hlen).mp hcollided
    have hn : (BitVec.ofNat 8 p.length).toNat = p.length := lengthByte_toNat hlen
    exact ⟨_, _, o, j, v, hspells, htype, hlength.mpr hn.symm, recOffset_recordOf _, hj.trans_eq hn.symm, hv⟩

/-- A cause of a line that decodes is that its instruction is rejected: its place is behind those of the checks the line
has passed, and the type byte it names is the instruction's. -/
theorem rejects_of_cause {line : Line} {i : Instr} {s : State} {k : ErrKind} (hd : decodeLine line = .ok i)
    (hc : Cause line s k) : Rejects i s k := by
  have hplace : 8 ≤ priority k := noCauseBefore_of_decodeLine s hd k hc
  have hwf := wellFormed_of_decodeLine hd
  cases k with
  | malformedLine sub =>
    have := priority_malformedLine_le sub
    omega
  | recordLengthMismatch => exact absurd hplace (by decide)
  | unknownRecordType => exact absurd hplace (by decide)
  | checksumMismatch => exact absurd hplace (by decide)
  | invalidEndOfFileRecord =>
    obtain ⟨_, hs, ht, hshape⟩ := hc
    obtain ⟨o, p, rfl, rfl⟩ := exists_instrOf_of_typeByte (t := .eof) hd hs ht
    exact .eofShape hshape
  | duplicateEndOfFileRecord =>
    obtain ⟨hs, hset⟩ := hc
    obtain ⟨o, p, rfl, hrec⟩ := exists_instrOf_of_typeByte (t := .eof) hd hs rfl
    obtain ⟨rfl, rfl⟩ := (isEofTerminator_iff o p).mp (beq_iff_eq.mpr hrec.symm)
    exact .eofTwice hset
  | badExtendedSegmentAddressRecord =>
    obtain ⟨o, p, rfl, hshape⟩ := exists_misshapen_instrOf (t := .esa) hd hc
    exact .esaShape hshape
  | badExtendedLinearAddressRecord =>
    obtain ⟨o, p, rfl, hshape⟩ := exists_misshapen_instrOf (t := .ela) hd hc
    exact .elaShape hshape
  | badStartSegmentAddressRecord =>
    obtain ⟨o, p, rfl, hshape⟩ := exists_misshapen_instrOf (t := .ssa) hd hc
    exact .ssaShape hshape
  | badStartLinearAddressRecord =>
    obtain ⟨o, p, rfl, hshape⟩ := exists_misshapen_instrOf (t := .sla) hd hc
    exact .slaShape hshape
  | duplicateStartAddressRecord =>
    obtain ⟨_, hs, ht | ht, hn, hset⟩ := hc
    · obtain ⟨o, p, rfl, rfl⟩ := exists_instrOf_of_typeByte (t := .ssa) hd hs ht
      exact .ssaTwice ((recordOf_lengthByte_eq_some_iff hwf).mp hn) hset
    · obtain ⟨o, p, rfl, rfl⟩ := exists_instrOf_of_typeByte (t := .sla) hd hs ht
      exact .slaTwice ((recordOf_lengthByte_eq_some_iff hwf).mp hn) hset
  | addressOverlap =>
    obtain ⟨_, n, off, j, v, hs, ht, hn, hoff, hj, hv⟩ := hc
    obtain ⟨o, p, rfl, rfl⟩ := exists_instrOf_of_typeByte (t := .data) hd hs ht
    cases hoff.symm.trans (recOffset_recordOf _)
    have hlen : p.length = n.toNat := (recordOf_lengthByte_eq_some_iff hwf).mp hn
    exact .overlap ((storeFrom_collided_iff ((wellFormed_iff _).mp hwf)).mpr ⟨j, v, hj.trans_eq hlen.symm, hv⟩)

theorem cause_iff_rejects {line : Line} {i : Instr} {s : State} {k : ErrKind} (hd : decodeLine line = .ok i) :
    Cause line s k ↔ Rejects i s k := ⟨rejects_of_cause hd, cause_of_rejects hd⟩

/-- A meaning has one result, so it rejects with one kind. -/
theorem Rejects.kind_unique {i : Instr} {s : State} {k k' : ErrKind} (hr : Rejects i s k) (hr' : Rejects i s k') :
    k = k' := by
  obtain ⟨t, ht, hk⟩ := exec_err_of_rejects hr
  have hk' : t.result = some (.err k') := (exec_err_iff ht).mpr hr'
  cases hk.symm.trans hk'
  rfl

/-! ## The first cause is reported (R189) -/

/-- A line reports `Ok` exactly when it reports no kind of error. -/
theorem processLine_ok_iff {line : Line} {s t : State} (h : processLine line s = .next t) :
    t.result = some .ok ↔ ∀ k, t.result ≠ some (.err k) := by
  obtain ⟨r, hr⟩ := Option.ne_none_iff_exists'.mp (processLine_result_ne_none h)
  cases r with
  | ok => simp [hr]
  | err k => simp [hr]

/-- A line reports the kind whose cause comes first: the failed check's when it does not decode, the only one there is
when it does. -/
theorem processLine_err_iff_first_cause {line : Line} {s t : State} (h : processLine line s = .next t) (k : ErrKind) :
    t.result = some (.err k) ↔ Cause line s k ∧ NoCauseBefore (priority k) line s := by
  cases hd : decodeLine line with
  | error k₀ =>
    obtain ⟨hc₀, hfirst₀⟩ := cause_of_decodeLine_error s hd
    have hreport : t.result = some (.err k₀) := (processLine_err_iff h).mpr (.inl hd)
    constructor
    · intro hk
      cases hreport.symm.trans hk
      exact ⟨hc₀, hfirst₀⟩
    · rintro ⟨hc, hfirst⟩
      have hsame : priority k₀ = priority k := le_antisymm (hfirst₀ k hc) (hfirst k₀ hc₀)
      rw [hreport, eq_of_priority_eq hsame (priority_le_seven_of_decodeLine_error hd)]
  | ok i =>
    have hreport : t.result = some (.err k) ↔ Cause line s k :=
      (exec_err_iff ((processLine_ok hd s).symm.trans h)).trans (cause_iff_rejects hd).symm
    refine hreport.trans (and_iff_left_of_imp fun hc k' hc' => ?_).symm
    rw [(rejects_of_cause hd hc).kind_unique (rejects_of_cause hd hc')]

theorem exists_first_cause {line : Line} {s : State} {k : ErrKind} (hc : Cause line s k) :
    ∃ k, Cause line s k ∧ NoCauseBefore (priority k) line s := by
  obtain ⟨k₀, hc₀, hmin⟩ := exists_minimalFor_of_wellFoundedLT (Cause line s) priority ⟨k, hc⟩
  exact ⟨k₀, hc₀, fun k' hc' => (le_total _ _).elim id (hmin hc')⟩

/-- Settles O43: a line that has a cause has a first one, so it ends in `Ok` exactly when it has none. -/
theorem firstCauseInOrderIsReported : Obligations.FirstCauseInOrderIsReported := by
  intro line s
  obtain ⟨t, h⟩ := processLine_next line s
  refine ⟨t, h, (processLine_ok_iff h).trans ⟨fun hne k hc => ?_, fun hnone k hk => ?_⟩,
    processLine_err_iff_first_cause h⟩
  · obtain ⟨k₀, hfirst⟩ := exists_first_cause hc
    exact hne k₀ ((processLine_err_iff_first_cause h k₀).mpr hfirst)
  · obtain ⟨hc, -⟩ := (processLine_err_iff_first_cause h k).mp hk
    exact hnone k hc

end Sys2Proof.Machine
end

section
/-! The codes of the results (R188, D4): read back from its 4 bits, a code gives its result. -/

namespace Sys2Proof.Machine

/-- The result a code stands for (R175's table): up to 7 the codes of the errors are their places in the order of
checks. -/
def resultOfCode (c : BitVec 4) : StepResult :=
  match c.toNat with
  | 0 => .ok
  | 8 => .err .invalidEndOfFileRecord
  | 9 => .err .duplicateEndOfFileRecord
  | 10 => .err .badExtendedSegmentAddressRecord
  | 11 => .err .badExtendedLinearAddressRecord
  | 12 => .err .badStartSegmentAddressRecord
  | 13 => .err .badStartLinearAddressRecord
  | 14 => .err .duplicateStartAddressRecord
  | 15 => .err .addressOverlap
  | n => .err (kindAtPlace n)

theorem resultOfCode_resultCode : Function.LeftInverse resultOfCode resultCode
  | .ok => rfl
  | .err k => by
    cases k with
    | malformedLine sub => cases sub <;> rfl
    | _ => rfl

theorem resultCode_resultOfCode : ∀ c, resultCode (resultOfCode c) = c := by decide

/-- Settles O44: every result is read back from its code, and every code is read as some result. -/
theorem resultCodesAreDistinct : Obligations.ResultCodesAreDistinct :=
  ⟨fun _ _ h => resultOfCode_resultCode.injective h, fun c => ⟨_, resultCode_resultOfCode c⟩, rfl, rfl, rfl⟩

end Sys2Proof.Machine
end

section
/-! A new session (R210, R211): the reset state with the host's pending lines. The lines are no session element, so
each surface reads as it does at reset. -/

namespace Sys2Proof.Machine

@[simp] theorem hostGet_setLines (s : State) (ls : List Line) (a : Addr) : hostGet (s.setLines ls) a = hostGet s a := rfl

theorem State.inv_setLines (s : State) (ls : List Line) : (s.setLines ls).Inv ↔ s.Inv := Iff.rfl

/-- Settles O2: supplying the lines to the reset state leaves its four elements (O1) and its canonical image (O21). -/
theorem newSessionRestoresReset : Obligations.NewSessionRestoresReset := by
  intro s
  obtain ⟨hbase, hget, -, hstart, heof⟩ := resetIsTheInitialSession
  exact ⟨(State.setLines_baseAddress State.reset s.lines).trans hbase,
    fun a => (hostGet_setLines State.reset s.lines a).trans (hget a),
    (State.setLines_startAddress State.reset s.lines).trans hstart,
    (State.setLines_eofFlag State.reset s.lines).trans heof,
    State.setLines_lines State.reset s.lines,
    (State.inv_setLines State.reset s.lines).mpr resetImageIsCanonical⟩

end Sys2Proof.Machine
end
